-- ==== Sys2Proof/Word.lean ====
section
/-! DEFINITION. The word, the byte and the register number (spec/00_scope.md R8, R11; spec/10_state.md R19). -/

namespace Sys2Proof

/-- Every register, memory word and address is 16 bits wide (R8, R11). -/
abbrev Word := BitVec 16

/-- A character of the input or a byte of the output (R32, R33). -/
abbrev Byte := BitVec 8

/-- The number of a general register R0..R7 (R19). -/
abbrev Reg := Fin 8

end Sys2Proof
end

