-- ==== Sys2Proof/Machine/Bits.lean ====
section
/-! DEFINITION. Sign and zero extension and the bytes of a word (spec/00_scope.md R10, R12). -/

namespace Sys2Proof.Machine

/-- An instruction field, sign-extended to a word (R12). -/
def sextField {n : Nat} (f : BitVec n) : Word := f.signExtend 16

/-- An instruction field or a character, zero-extended to a word (R12). -/
def zextField {n : Nat} (f : BitVec n) : Word := f.setWidth 16

/-- `sext_N` on a word: its bits N-1..0, sign-extended (R12). -/
def sext (n : Nat) (v : Word) : Word := sextField (v.setWidth n)

/-- `zext_N` on a word: its bits N-1..0, with bits 15..N clear (R12). -/
def zext (n : Nat) (v : Word) : Word := zextField (v.setWidth n)

/-- Bits 7:0 of a word. -/
def lowByte (w : Word) : Byte := w.extractLsb' 0 8

/-- Bits 15:8 of a word. -/
def highByte (w : Word) : Byte := w.extractLsb' 8 8

end Sys2Proof.Machine
end

