-- ==== Sys2Proof/Config.lean ====
section
/-! DEFINITION. The parameters the spec leaves open (spec/00_scope.md R9), and the values it gives no default for.
The default values stand in Machine/Params.lean. -/

namespace Sys2Proof

/-- The parameters of R9 that the core reads. The spec says "the model takes each one as an argument": State holds
one such record, and no step changes it (log 1). -/
structure Config where
  /-- KBSR_ADDR, the keyboard status address. -/
  kbsrAddr : Word
  /-- KBDR_ADDR, the keyboard data address. -/
  kbdrAddr : Word
  /-- HALT_NOTICE, what HALT writes. -/
  haltNotice : List Byte
  /-- IN_PROMPT, what IN writes before it reads. -/
  inPrompt : List Byte
  /-- TRAP_READ_INTERCEPTS, whether the string reads of PUTS and PUTSP poll at KBSR_ADDR. -/
  trapReadIntercepts : Bool
  deriving DecidableEq, Repr

/-- "KBSR_ADDR and KBDR_ADDR must be distinct" (R9). -/
def Config.wf (c : Config) : Bool := c.kbsrAddr != c.kbdrAddr

/-- EXIT_CODE_FATAL (R9, R133, D19): OPEN, so a free value (log 12). -/
opaque Config.exitCodeFatal : Nat

/-- EXIT_CODE_STOP (R9, R133, D19): OPEN, so a free value (log 12). -/
opaque Config.exitCodeStop : Nat

end Sys2Proof
end

