-- ==== Sys2Proof/Machine/Params.lean ====
section
/-! DEFINITION. The default values that spec/00_scope.md R9 gives the parameters. -/

namespace Sys2Proof.Machine

/-- The defaults of R9: 0xFE00, 0xFE02, "HALT" and a line feed, "Enter a character: ", and intercepted string reads.
The spec marks the first four as general knowledge and the last as its own choice (D5, D15, D16, D17; log 1). -/
def defaultConfig : Config where
  kbsrAddr := 0xFE00#16
  kbdrAddr := 0xFE02#16
  haltNotice := [0x48#8, 0x41#8, 0x4C#8, 0x54#8, 0x0A#8]
  inPrompt := [0x45#8, 0x6E#8, 0x74#8, 0x65#8, 0x72#8, 0x20#8, 0x61#8, 0x20#8, 0x63#8, 0x68#8, 0x61#8, 0x72#8,
    0x61#8, 0x63#8, 0x74#8, 0x65#8, 0x72#8, 0x3A#8, 0x20#8]
  trapReadIntercepts := true

end Sys2Proof.Machine
end

