-- ==== Sys2Proof/Syntax.lean ====
section
/-! DEFINITION. The instructions: one constructor for each row of spec/opcode_table.json. -/

namespace Sys2Proof

/-- The six built-in trap services (spec/44_trap.md R104). -/
inductive Service where
  | getc | out | puts | input | putsp | halt
  deriving DecidableEq, Repr

/-- The instruction set. A field is named as in spec/30_encoding.md R61. Bits the decoder ignores (R72) are no field,
but where InvalidOpcode records the raw word (R115), the constructor keeps every bit of it (log 10). -/
inductive Instr where
  /-- BR (R99) -/
  | br (n z p : Bool) (off9 : BitVec 9)
  /-- ADD, register mode (R85) -/
  | addReg (dr sr1 sr2 : Reg)
  /-- ADD, immediate mode (R86) -/
  | addImm (dr sr1 : Reg) (imm5 : BitVec 5)
  /-- LD (R91) -/
  | ld (dr : Reg) (off9 : BitVec 9)
  /-- ST (R95) -/
  | st (sr : Reg) (off9 : BitVec 9)
  /-- JSRR (R102) -/
  | jsrr (baseR : Reg)
  /-- JSR (R101) -/
  | jsr (off11 : BitVec 11)
  /-- AND, register mode (R87) -/
  | andReg (dr sr1 sr2 : Reg)
  /-- AND, immediate mode (R88) -/
  | andImm (dr sr1 : Reg) (imm5 : BitVec 5)
  /-- LDR (R93) -/
  | ldr (dr baseR : Reg) (off6 : BitVec 6)
  /-- STR (R97) -/
  | str (sr baseR : Reg) (off6 : BitVec 6)
  /-- Opcode 8, unused (R81); `low` is bits 11:0 of the raw word -/
  | opcode8 (low : BitVec 12)
  /-- NOT (R89) -/
  | notReg (dr sr : Reg)
  /-- LDI (R92) -/
  | ldi (dr : Reg) (off9 : BitVec 9)
  /-- STI (R96) -/
  | sti (sr : Reg) (off9 : BitVec 9)
  /-- JMP (R100); RET is `jmp 7` (R76) -/
  | jmp (baseR : Reg)
  /-- Opcode 13, reserved (R81); `low` is bits 11:0 of the raw word -/
  | opcode13 (low : BitVec 12)
  /-- LEA (R94) -/
  | lea (dr : Reg) (off9 : BitVec 9)
  /-- TRAP with any vector (R103), the common part of every TRAP; `high` is bits 11:8 of the raw word.
  The decoder never gives it: each TRAP word is one of the seven rows below (log 11). -/
  | trap (high : BitVec 4) (trapvect8 : BitVec 8)
  /-- TRAP x20, GETC (R105) -/
  | trapGetc
  /-- TRAP x21, OUT (R106) -/
  | trapOut
  /-- TRAP x22, PUTS (R107) -/
  | trapPuts
  /-- TRAP x23, IN (R108) -/
  | trapIn
  /-- TRAP x24, PUTSP (R109) -/
  | trapPutsp
  /-- TRAP x25, HALT (R110) -/
  | trapHalt
  /-- TRAP with a vector that is no service (R111); `high` is bits 11:8 of the raw word -/
  | trapUndefined (high : BitVec 4) (trapvect8 : BitVec 8)
  deriving DecidableEq, Repr

end Sys2Proof
end

