-- ==== Sys2Proof/Machine/State.lean ====
section
/-! DEFINITION. The machine's state (spec/10_state.md), the reasons a step can stop, and the state after reset. -/

namespace Sys2Proof.Machine

/-- The condition flag: exactly one of the three (R25, R26). -/
inductive Cond where
  | pos | zero | neg
  deriving DecidableEq, Repr

/-- Why a run ended (R30). -/
inductive HaltReason where
  /-- The HALT trap (R110). -/
  | halt
  /-- InvalidOpcode, with the fetch address and the raw word (R115). -/
  | invalidOpcode (addr word : Word)
  /-- A failed Out or Flush (R116). -/
  | outputFailure
  /-- A host stop request (R31). -/
  | stopped
  deriving DecidableEq, Repr

/-- The run state (R30). HALTED is terminal. -/
inductive RunState where
  | running
  | halted (reason : HaltReason)
  deriving DecidableEq, Repr

/-- Which service is waiting in InRead() with no character there (R112). -/
inductive Wait where
  /-- None: the next core step fetches an instruction. -/
  | ready
  /-- GETC waits. -/
  | getc
  /-- IN waits, with its prompt written. -/
  | input
  deriving DecidableEq, Repr

/-- One turn of the host between two core steps (R129). Which calls of Out and Flush fail is `State.outFailAt`. -/
structure HostMove where
  /-- the characters it appends to `inq` -/
  arrives : List Byte
  /-- whether it sets `stop` -/
  setsStop : Bool
  /-- how many more bytes of `out` it makes visible, as far as there are any -/
  shows : Nat
  deriving DecidableEq, Repr

/-- One memory word at a word address (R37: there are no bytes in memory; log 2). -/
abbrev Cell := Nat × Word

/-- Memory: the words that differ from 0x0000, by rising address. An address that is not listed reads 0x0000, which is
what R36 gives every word at reset. `Memory.wf` in Machine/Ops.lean says the form. -/
abbrev Memory := List Cell

/-- The state. `regs` to `out` are the spec's (10_state.md section 1); `wait` and `flushed` it implies;
`host`, `outFailAt` and `cfg` are the model's own (log 3, log 4, log 1). -/
structure State where
  /-- R0..R7 (R19) -/
  regs : Vector Word 8
  /-- the next-instruction pointer (R22) -/
  pc : Word
  /-- the condition flag (R25) -/
  cond : Cond
  /-- the 65536 words (R37), KBSR and KBDR among them (R44) -/
  mem : Memory
  /-- RUNNING or HALTED (R30) -/
  run : RunState
  /-- the host's stop request (R31) -/
  stop : Bool
  /-- characters delivered and not consumed, oldest first (R32) -/
  inq : List Byte
  /-- bytes written, oldest first (R33) -/
  out : List Byte
  /-- how many bytes of `out` a Flush, or the host by itself, has made visible (R33, R129; log 9) -/
  flushed : Nat
  /-- a service suspended in InRead() (R112; log 6) -/
  wait : Wait
  /-- the host's coming turns, the head before the next core step (R31, R32; log 3) -/
  host : List HostMove
  /-- how many Out or Flush calls succeed before one fails; none: no call ever fails (R33, D14; log 4) -/
  outFailAt : Option Nat
  /-- the parameters of R9 (log 1) -/
  cfg : Config
  deriving DecidableEq, Repr

/-- The states and instructions for which the spec gives the core no step. Each of them is safe: the model stops where
the spec has no next state. -/
inductive Fault where
  /-- Raised by `step` in a HALTED state: "the machine takes no further step" (R30, R77). Safe. -/
  | halted (reason : HaltReason)
  /-- Raised by `step` while GETC or IN waits, no character is there, stop is not set and the host has no coming turn:
  "the core has no enabled step" (R112, U7). The state is not final. Safe. -/
  | waitingForInput
  /-- Raised by the meanings of PUTS, PUTSP and TRAP for a string whose loop never ends: "a hang inside one
  instruction" (R107, R109, U8; log 8). Safe. -/
  | stringNeverEnds
  deriving DecidableEq, Repr

/-- The reasons an instruction has no meaning. -/
inductive Refusal where
  /-- Raised only by an arm of `exec` whose instruction has no meaning yet; there is none. Safe. -/
  | notModelled (mnemonic : String)
  deriving DecidableEq, Repr

/-- A new VM instance, with parameters `cfg` and the characters `inq` the host has already supplied (R36, R134, D23).
The values of `wait`, `flushed`, `host` and `outFailAt` are DESIGN CHOICES (log 6, 9, 3, 4). -/
def State.resetWith (cfg : Config) (inq : List Byte) : State where
  regs := Vector.replicate 8 0#16
  pc := 0x3000#16
  cond := .zero
  mem := []
  run := .running
  stop := false
  inq := inq
  out := []
  flushed := 0
  wait := .ready
  host := []
  outFailAt := none
  cfg := cfg

/-- The machine right after reset, with the default parameters of R9 and no character typed ahead
(DESIGN CHOICE, log 5). -/
def State.reset : State := State.resetWith defaultConfig []

end Sys2Proof.Machine
end

