-- ==== Sys2Proof/Machine/Flags.lean ====
section
/-! DEFINITION. The condition flag: its three-bit form (spec/10_state.md R25), the condition-flag updater
(spec/40_fetch_decode_dispatch.md R82) and the branch test (spec/43_control_flow.md R99). -/

namespace Sys2Proof.Machine

/-- `cond` as BR sees it: POS = 001, ZERO = 010, NEG = 100 (R25; the spec's decision D3). -/
def Cond.bits : Cond → BitVec 3
  | .pos => 0b001#3
  | .zero => 0b010#3
  | .neg => 0b100#3

/-- The flag `setcc(v)` sets (R82). -/
def condOf (v : Word) : Cond :=
  if v = 0x0000#16 then .zero else if v.getLsbD 15 then .neg else .pos

/-- `setcc(v)` (R82): the only writer of `cond` (R26). -/
def State.setcc (v : Word) (s : State) : State := { s with cond := condOf v }

/-- BR's flag field `ir[11:9]`: n is bit 2, z bit 1, p bit 0 (R70). -/
def nzpField (n z p : Bool) : BitVec 3 := BitVec.ofBool n ++ BitVec.ofBool z ++ BitVec.ofBool p

/-- "test (3-bit flag field in the instruction) AND COND; if nonzero" (R99). -/
def branchTaken (n z p : Bool) (c : Cond) : Bool := (nzpField n z p &&& c.bits) != 0#3

end Sys2Proof.Machine
end

