-- ==== Sys2Proof/Machine/Ops.lean ====
section
/-! DEFINITION. The named operations over registers, memory, the host's streams and the run state. Every meaning goes
through these. -/

namespace Sys2Proof.Machine

/-! ## Registers -/

/-- `x[i]` (R13, R19): no register is hard-wired. -/
def State.reg (s : State) (r : Reg) : Word := s.regs[r]

/-- `x[i] <- v` (R13). -/
def State.writeReg (r : Reg) (v : Word) (s : State) : State := { s with regs := s.regs.set r v }

/-- `pc <- t` (R13). -/
def State.setPc (t : Word) (s : State) : State := { s with pc := t }

/-- R7, the link register of JSR, JSRR and TRAP (R98). -/
def linkReg : Reg := 7

/-- R0, the register the services read and write (R20, R21). -/
def serviceReg : Reg := 0

/-- Write DR and set `cond` from its new value, as every flag-affecting instruction does (R27, R82). -/
def State.writeResult (dr : Reg) (v : Word) (s : State) : State :=
  let t := s.writeReg dr v
  t.setcc (t.reg dr)

/-! ## The memory array -/

/-- The stored word at an address; an unlisted address reads 0x0000 (R36). -/
def Memory.read : Memory → Nat → Word
  | [], _ => 0x0000#16
  | (b, w) :: rest, a => if b = a then w else Memory.read rest a

/-- The entries at other addresses. -/
def Memory.erase (m : Memory) (a : Nat) : Memory := m.filter (fun c => c.1 != a)

/-- An entry put before the first one at a higher address. -/
def Memory.insert : Memory → Nat → Word → Memory
  | [], a, v => [(a, v)]
  | (b, w) :: rest, a, v => if a < b then (a, v) :: (b, w) :: rest else (b, w) :: Memory.insert rest a v

/-- Store a word, keeping the form: rising addresses, one entry each, no entry 0x0000. -/
def Memory.write (m : Memory) (a : Nat) (v : Word) : Memory :=
  if v = 0x0000#16 then m.erase a else (m.erase a).insert a v

/-- The form, from address `lo` on: strictly rising addresses below 65536 and no entry 0x0000. -/
def Memory.wfFrom : Nat → Memory → Bool
  | _, [] => true
  | lo, (a, w) :: rest => decide (lo ≤ a) && decide (a < 65536) && (w != 0x0000#16) && Memory.wfFrom (a + 1) rest

/-- The canonical form of a memory: equal memories are equal lists. -/
def Memory.wf (m : Memory) : Bool := Memory.wfFrom 0 m

/-- `mem[a]`, the stored word, with no interception (R14). -/
def State.stored (s : State) (a : Word) : Word := s.mem.read a.toNat

/-- `mem[a] <- v`. -/
def State.store (a v : Word) (s : State) : State := { s with mem := s.mem.write a.toNat v }

/-! ## The input collaborator (R32) -/

/-- `InAvail()`: whether a character is there; it changes nothing (R32). -/
def State.inAvail (s : State) : Bool := !s.inq.isEmpty

/-- `inq` holds these characters. -/
def State.setInq (q : List Byte) (s : State) : State := { s with inq := q }

/-- `InRead()` when a character is there: the oldest one and the state without it; none when the core would wait
(R32, R58). -/
def State.inRead (s : State) : Option (Byte × State) :=
  match s.inq with
  | [] => none
  | c :: rest => some (c, s.setInq rest)

/-! ## MemRead and MemWrite -/

/-- What a read of KBSR does before it returns the word (R39, R40). -/
def State.pollKeyboard (s : State) : State :=
  match s.inRead with
  | some (c, t) => (t.store s.cfg.kbsrAddr 0x8000#16).store s.cfg.kbdrAddr (zextField c)
  | none => s.store s.cfg.kbsrAddr 0x0000#16

/-- `MemRead(a, 1)`: the word, and the state after the read (R39). Only a read of KBSR_ADDR changes the state (R41). -/
def State.memRead (a : Word) (s : State) : Word × State :=
  let t := if a = s.cfg.kbsrAddr then s.pollKeyboard else s
  (t.stored a, t)

/-- `MemWrite(a, 1, v)`: an unconditional store, with no other effect at any address (R42). -/
def State.memWrite (a v : Word) (s : State) : State := s.store a v

/-- A string read of PUTS or PUTSP: `MemRead`, or the stored word when TRAP_READ_INTERCEPTS is false (R43, R107). -/
def State.stringRead (a : Word) (s : State) : Word × State :=
  if s.cfg.trapReadIntercepts then s.memRead a else (s.stored a, s)

/-! ## The end of a run -/

/-- `run <- HALTED(reason)`; every other piece of state keeps its value (R30), and no service waits any more. -/
def State.haltWith (reason : HaltReason) (s : State) : State :=
  { s with run := .halted reason, wait := .ready }

/-- `raise InvalidOpcode(fa, ir)`: the fetch address `fa` is `pc - 1` modulo 2^16 (R115). Effects made before stay
(R119). Nothing vectors anywhere (R123), and no instruction returns from it (R120, R124). -/
def State.raiseInvalidOpcode (ir : Word) (s : State) : State :=
  s.haltWith (.invalidOpcode (s.pc - 1) ir)

/-- `raise OutputFailure()` (R116). -/
def State.raiseOutputFailure (s : State) : State := s.haltWith .outputFailure

/-- The entry of TRAP (R103, R123), and the link of JSR and JSRR (R101, R102): R7 <- pc, the address of the next word.
Nothing else is saved. There is no return beside it: a service returns by not writing pc (R124). -/
def State.link (s : State) : State := s.writeReg linkReg s.pc

/-! ## The output collaborator (R33) -/

/-- Where a service stands after a call that may fail: it goes on, or the run has ended (R113). -/
inductive Ran where
  | goesOn (s : State)
  | ended (s : State)
  deriving DecidableEq, Repr

/-- The state, however the service ended. -/
def Ran.state : Ran → State
  | .goesOn s => s
  | .ended s => s

/-- The next part of a service: "Later steps of the service do not happen" after a failure (R113). -/
def Ran.andThen (r : Ran) (f : State → Ran) : Ran :=
  match r with
  | .goesOn s => f s
  | .ended s => .ended s

/-- The host's draw for the next Out or Flush call: does it fail? (R33, D14) -/
def State.outputFails (s : State) : Bool := s.outFailAt == some 0

/-- The draw of one successful call is used up. -/
def State.drawUsed (s : State) : State := { s with outFailAt := s.outFailAt.map Nat.pred }

/-- Append a byte to `out`. -/
def State.emit (b : Byte) (s : State) : State := { s with out := s.out ++ [b] }

/-- Every byte of `out` is visible (R33). -/
def State.markFlushed (s : State) : State := { s with flushed := s.out.length }

/-- `Out(b)` (R33): append the byte, or fail, in which case `out` is unchanged and the run ends (R116). -/
def State.outByte (b : Byte) (s : State) : Ran :=
  if s.outputFails then .ended s.raiseOutputFailure else .goesOn (s.drawUsed.emit b)

/-- `Flush()` (R33): it changes no core state; it may fail (R116). -/
def State.flush (s : State) : Ran :=
  if s.outputFails then .ended s.raiseOutputFailure else .goesOn s.drawUsed.markFlushed

/-- `Out(b)` for each byte in turn. -/
def outBytes : List Byte → State → Ran
  | [], s => .goesOn s
  | b :: rest, s => (s.outByte b).andThen (outBytes rest)

/-! ## Waiting, and the host's turn -/

/-- The service of kind `w` waits in InRead() (R112). -/
def State.setWait (w : Wait) (s : State) : State := { s with wait := w }

/-- Bytes of `out` made visible by the host, without a Flush: `k` more, as far as there are any (R129). -/
def State.showMore (k : Nat) (s : State) : State := { s with flushed := max s.flushed (min (s.flushed + k) s.out.length) }

/-- The host's next turn, if it has one: it appends characters to `inq`, may set `stop` and may make bytes of `out`
visible; it touches nothing else (R32, R34, R129; log 3). -/
def State.hostTurn (s : State) : State :=
  match s.host with
  | [] => s
  | m :: rest => { s.showMore m.shows with inq := s.inq ++ m.arrives, stop := s.stop || m.setsStop, host := rest }

end Sys2Proof.Machine
end

