-- ==== Sys2Proof/Machine/Operands.lean ====
section
/-! DEFINITION. The operand forms: register, immediate and the three effective addresses of spec/42_data_move.md R90.
`pc` already holds the instruction's address plus 1 (R78). Every sum is modulo 2^16 (R38). -/

namespace Sys2Proof.Machine

/-- The immediate operand of ADD and AND: `sext_5(ir[4:0])` (R66). -/
def immediate (imm5 : BitVec 5) : Word := sextField imm5

/-- PC-relative: `pc + sext_N(offset)` with the incremented pc (R68, R69, R90). -/
def State.pcRelative {n : Nat} (s : State) (off : BitVec n) : Word := s.pc + sextField off

/-- Base plus offset: `x[BaseR] + sext_6(offset6)` (R67, R90). -/
def State.basePlusOffset (s : State) (baseR : Reg) (off6 : BitVec 6) : Word := s.reg baseR + sextField off6

/-- Indirect: the pointer word `MemRead(pc + sext_9(offset))`, and the state after that read (R90, R43). -/
def State.indirect (s : State) (off9 : BitVec 9) : Word × State := s.memRead (s.pcRelative off9)

end Sys2Proof.Machine
end

