-- ==== Sys2Proof/Machine/Alu.lean ====
section
/-! DEFINITION. The ALU and ADD, AND, NOT (spec/41_alu.md R84-R89). Operands are read before DR is written. -/

namespace Sys2Proof.Machine

/-- add: `(a + b) mod 2^16`, overflow silent (R84). -/
def aluAdd (a b : Word) : Word := a + b

/-- and: bitwise (R84). -/
def aluAnd (a b : Word) : Word := a &&& b

/-- not: the bitwise complement, `0xFFFF - a` (R84). -/
def aluNot (a : Word) : Word := ~~~a

/-- ADD, register mode (R85). -/
def execAddReg (dr sr1 sr2 : Reg) (s : State) : Host.Outcome State Fault Refusal :=
  .next (s.writeResult dr (aluAdd (s.reg sr1) (s.reg sr2)))

/-- ADD, immediate mode (R86). -/
def execAddImm (dr sr1 : Reg) (imm5 : BitVec 5) (s : State) : Host.Outcome State Fault Refusal :=
  .next (s.writeResult dr (aluAdd (s.reg sr1) (immediate imm5)))

/-- AND, register mode (R87). -/
def execAndReg (dr sr1 sr2 : Reg) (s : State) : Host.Outcome State Fault Refusal :=
  .next (s.writeResult dr (aluAnd (s.reg sr1) (s.reg sr2)))

/-- AND, immediate mode (R88): the mask applies to the value of SR1, never to its index (C1). -/
def execAndImm (dr sr1 : Reg) (imm5 : BitVec 5) (s : State) : Host.Outcome State Fault Refusal :=
  .next (s.writeResult dr (aluAnd (s.reg sr1) (immediate imm5)))

/-- NOT (R89). -/
def execNotReg (dr sr : Reg) (s : State) : Host.Outcome State Fault Refusal :=
  .next (s.writeResult dr (aluNot (s.reg sr)))

end Sys2Proof.Machine
end

