-- ==== Sys2Proof/Decode.lean ====
section
/-! DEFINITION. From a word to its instruction and back (spec/30_encoding.md). Opcode numbers, field positions and
trap vectors are the spec's decisions D1, D2 and D4 (log 14). -/

namespace Sys2Proof

/-- The 3-bit field that names a register (R19). -/
def Reg.bits (r : Reg) : BitVec 3 := BitVec.ofFin r

/-- The register a 3-bit field names (R19). -/
def Reg.ofBits (b : BitVec 3) : Reg := b.toFin

/-! ## The formats of R61, each with its ignored bits as an argument -/

/-- Format RR: `op DDD SSS 0 xx TTT`. -/
def fmtRR (op : BitVec 4) (dr sr1 : Reg) (x : BitVec 2) (sr2 : Reg) : Word :=
  op ++ Reg.bits dr ++ Reg.bits sr1 ++ 0#1 ++ x ++ Reg.bits sr2

/-- Format RI: `op DDD SSS 1 iiiii`. -/
def fmtRI (op : BitVec 4) (dr sr1 : Reg) (imm5 : BitVec 5) : Word :=
  op ++ Reg.bits dr ++ Reg.bits sr1 ++ 1#1 ++ imm5

/-- Format R2: `1001 DDD SSS xxxxxx`. -/
def fmtR2 (dr sr : Reg) (x : BitVec 6) : Word :=
  0b1001#4 ++ Reg.bits dr ++ Reg.bits sr ++ x

/-- Format PC9: `op DDD ooooooooo`. -/
def fmtPC9 (op : BitVec 4) (r : Reg) (off9 : BitVec 9) : Word :=
  op ++ Reg.bits r ++ off9

/-- Format BR: `0000 n z p ooooooooo`. -/
def fmtBR (n z p : Bool) (off9 : BitVec 9) : Word :=
  0b0000#4 ++ BitVec.ofBool n ++ BitVec.ofBool z ++ BitVec.ofBool p ++ off9

/-- Format B6: `op DDD BBB oooooo`. -/
def fmtB6 (op : BitVec 4) (r baseR : Reg) (off6 : BitVec 6) : Word :=
  op ++ Reg.bits r ++ Reg.bits baseR ++ off6

/-- Format B: `1100 xxx BBB xxxxxx`. -/
def fmtB (x : BitVec 3) (baseR : Reg) (y : BitVec 6) : Word :=
  0b1100#4 ++ x ++ Reg.bits baseR ++ y

/-- Format PC11: `0100 1 ooooooooooo`. -/
def fmtPC11 (off11 : BitVec 11) : Word :=
  0b0100#4 ++ 1#1 ++ off11

/-- Format BJ: `0100 0 xx BBB xxxxxx`. -/
def fmtBJ (x : BitVec 2) (baseR : Reg) (y : BitVec 6) : Word :=
  0b0100#4 ++ 0#1 ++ x ++ Reg.bits baseR ++ y

/-- Format T: `1111 xxxx vvvvvvvv`. -/
def fmtT (x : BitVec 4) (trapvect8 : BitVec 8) : Word :=
  0b1111#4 ++ x ++ trapvect8

/-- Format ILL: `op xxxxxxxxxxxx`. -/
def fmtILL (op : BitVec 4) (x : BitVec 12) : Word :=
  op ++ x

/-! ## The fields of a word (R60, R62-R71) -/

/-- Bits 15:12 (R60). -/
def opcodeOf (w : Word) : BitVec 4 := w.extractLsb' 12 4

/-- The register named by the three bits from `lo` up: DR/SR at 9 (R62), SR1/SR/BaseR at 6 (R63), SR2 at 0 (R64). -/
def regAt (w : Word) (lo : Nat) : Reg := Reg.ofBits (w.extractLsb' lo 3)

/-- The `len` low bits: imm5, offset6, PCoffset9, PCoffset11, trapvect8 (R66-R69, R71). -/
def lowField (w : Word) (len : Nat) : BitVec len := w.extractLsb' 0 len

/-- Bit `i`: n, z, p (R70), the ADD/AND mode (R65), the JSR form (R69). -/
def bitAt (w : Word) (i : Nat) : Bool := w.getLsbD i

/-! ## Decoding -/

/-- The service of a trap vector, or none (R104, R111). -/
def serviceOf (trapvect8 : BitVec 8) : Option Service :=
  match trapvect8 with
  | 0x20#8 => some .getc
  | 0x21#8 => some .out
  | 0x22#8 => some .puts
  | 0x23#8 => some .input
  | 0x24#8 => some .putsp
  | 0x25#8 => some .halt
  | _ => none

/-- The row of opcode_table.json of a TRAP word with bits 11:8 `high` (R79, R104, R111). -/
def trapRow (high : BitVec 4) (trapvect8 : BitVec 8) : Instr :=
  match serviceOf trapvect8 with
  | some .getc => .trapGetc
  | some .out => .trapOut
  | some .puts => .trapPuts
  | some .input => .trapIn
  | some .putsp => .trapPutsp
  | some .halt => .trapHalt
  | none => .trapUndefined high trapvect8

/-- Decoding is total: "every 16-bit word selects exactly one of the 14 handlers or the invalid-opcode path" (R79),
which the constructors `opcode8` and `opcode13` are. It reads the word alone. The opcode map is R73's. -/
def decode (w : Word) : Instr :=
  match opcodeOf w with
  | 0#4 => .br (bitAt w 11) (bitAt w 10) (bitAt w 9) (lowField w 9)
  | 1#4 => if bitAt w 5 then .addImm (regAt w 9) (regAt w 6) (lowField w 5)
           else .addReg (regAt w 9) (regAt w 6) (regAt w 0)
  | 2#4 => .ld (regAt w 9) (lowField w 9)
  | 3#4 => .st (regAt w 9) (lowField w 9)
  | 4#4 => if bitAt w 11 then .jsr (lowField w 11) else .jsrr (regAt w 6)
  | 5#4 => if bitAt w 5 then .andImm (regAt w 9) (regAt w 6) (lowField w 5)
           else .andReg (regAt w 9) (regAt w 6) (regAt w 0)
  | 6#4 => .ldr (regAt w 9) (regAt w 6) (lowField w 6)
  | 7#4 => .str (regAt w 9) (regAt w 6) (lowField w 6)
  | 8#4 => .opcode8 (lowField w 12)
  | 9#4 => .notReg (regAt w 9) (regAt w 6)
  | 10#4 => .ldi (regAt w 9) (lowField w 9)
  | 11#4 => .sti (regAt w 9) (lowField w 9)
  | 12#4 => .jmp (regAt w 6)
  | 13#4 => .opcode13 (lowField w 12)
  | 14#4 => .lea (regAt w 9) (lowField w 9)
  | _ => trapRow (w.extractLsb' 8 4) (lowField w 8)

/-- Why a sequence of words holds no instruction. -/
inductive DecodeError where
  /-- There is no word: an instruction is exactly one word (R59). -/
  | noWord
  /-- The table's word is not 16 bits wide, or a bit beyond its width is set (R59). -/
  | notOneWord
  deriving DecidableEq, Repr

/-- The first instruction of a sequence of words, and the words after it (R59: one word, no other length). -/
def decodeWords : List Word → Except DecodeError (Instr × List Word)
  | [] => .error .noWord
  | w :: rest => .ok (decode w, rest)

/-- A word given as a number and a width in bits, as opcode_table.json numbers them. -/
def decodeNumbered (nbits w : Nat) : Except DecodeError Instr :=
  if nbits = 16 ∧ w < 65536 then .ok (decode (BitVec.ofNat 16 w)) else .error .notOneWord

/-- The instruction the decoder reads from a table word (the host's question). -/
def decodeTableWord (nbits w : Nat) : Option Instr :=
  match decodeNumbered nbits w with
  | .ok i => some i
  | .error _ => none

/-! ## Encoding -/

/-- The word of an instruction (R61, R73). Ignored bits are 0, but for bits 5:0 of NOT, which are 1 as in R89's own
example 0x92BF (log 10). -/
def encode : Instr → Word
  | .br n z p off9 => fmtBR n z p off9
  | .addReg dr sr1 sr2 => fmtRR 1#4 dr sr1 0#2 sr2
  | .addImm dr sr1 imm5 => fmtRI 1#4 dr sr1 imm5
  | .ld dr off9 => fmtPC9 2#4 dr off9
  | .st sr off9 => fmtPC9 3#4 sr off9
  | .jsrr baseR => fmtBJ 0#2 baseR 0#6
  | .jsr off11 => fmtPC11 off11
  | .andReg dr sr1 sr2 => fmtRR 5#4 dr sr1 0#2 sr2
  | .andImm dr sr1 imm5 => fmtRI 5#4 dr sr1 imm5
  | .ldr dr baseR off6 => fmtB6 6#4 dr baseR off6
  | .str sr baseR off6 => fmtB6 7#4 sr baseR off6
  | .opcode8 low => fmtILL 8#4 low
  | .notReg dr sr => fmtR2 dr sr 0b111111#6
  | .ldi dr off9 => fmtPC9 10#4 dr off9
  | .sti sr off9 => fmtPC9 11#4 sr off9
  | .jmp baseR => fmtB 0#3 baseR 0#6
  | .opcode13 low => fmtILL 13#4 low
  | .lea dr off9 => fmtPC9 14#4 dr off9
  | .trap high trapvect8 => fmtT high trapvect8
  | .trapGetc => fmtT 0#4 0x20#8
  | .trapOut => fmtT 0#4 0x21#8
  | .trapPuts => fmtT 0#4 0x22#8
  | .trapIn => fmtT 0#4 0x23#8
  | .trapPutsp => fmtT 0#4 0x24#8
  | .trapHalt => fmtT 0#4 0x25#8
  | .trapUndefined high trapvect8 => fmtT high trapvect8

end Sys2Proof
end

