-- ==== Sys2Proof/Machine/ControlFlow.lean ====
section
/-! DEFINITION. BR, JMP, JSR, JSRR (spec/43_control_flow.md R98-R102), and opcodes 8 and 13
(spec/40_fetch_decode_dispatch.md R81). -/

namespace Sys2Proof.Machine

/-- BR (R99). -/
def execBr (n z p : Bool) (off9 : BitVec 9) (s : State) : Host.Outcome State Fault Refusal :=
  .next (if branchTaken n z p s.cond then s.setPc (s.pcRelative off9) else s)

/-- JMP (R100). -/
def execJmp (baseR : Reg) (s : State) : Host.Outcome State Fault Refusal :=
  .next (s.setPc (s.reg baseR))

/-- JSR (R101): the link first, then the PC-relative target. -/
def execJsr (off11 : BitVec 11) (s : State) : Host.Outcome State Fault Refusal :=
  let t := s.link
  .next (t.setPc (t.pcRelative off11))

/-- JSRR (R102): the link first, and BaseR is read after it, so that JSRR R7 falls through. -/
def execJsrr (baseR : Reg) (s : State) : Host.Outcome State Fault Refusal :=
  let t := s.link
  .next (t.setPc (t.reg baseR))

/-- Opcode 8 (R81): InvalidOpcode with the raw word. -/
def execOpcode8 (low : BitVec 12) (s : State) : Host.Outcome State Fault Refusal :=
  .next (s.raiseInvalidOpcode (fmtILL 8#4 low))

/-- Opcode 13 (R81): InvalidOpcode with the raw word. -/
def execOpcode13 (low : BitVec 12) (s : State) : Host.Outcome State Fault Refusal :=
  .next (s.raiseInvalidOpcode (fmtILL 13#4 low))

end Sys2Proof.Machine
end

