-- ==== Sys2Proof/Machine/DataMove.lean ====
section
/-! DEFINITION. LD, LDI, LDR, LEA, ST, STI, STR (spec/42_data_move.md R90-R97). -/

namespace Sys2Proof.Machine

/-- DR <- MemRead(ea), then setcc (R91, R92, R93). -/
def loadInto (dr : Reg) (ea : Word) (s : State) : State :=
  let r := s.memRead ea
  r.2.writeResult dr r.1

/-- LD (R91). -/
def execLd (dr : Reg) (off9 : BitVec 9) (s : State) : Host.Outcome State Fault Refusal :=
  .next (loadInto dr (s.pcRelative off9) s)

/-- LDI (R92): the pointer read first, then the value read; both may poll. -/
def execLdi (dr : Reg) (off9 : BitVec 9) (s : State) : Host.Outcome State Fault Refusal :=
  let p := s.indirect off9
  .next (loadInto dr p.1 p.2)

/-- LDR (R93). -/
def execLdr (dr baseR : Reg) (off6 : BitVec 6) (s : State) : Host.Outcome State Fault Refusal :=
  .next (loadInto dr (s.basePlusOffset baseR off6) s)

/-- LEA (R94): the address itself, with no memory access, and the flags are set from it. -/
def execLea (dr : Reg) (off9 : BitVec 9) (s : State) : Host.Outcome State Fault Refusal :=
  .next (s.writeResult dr (s.pcRelative off9))

/-- ST (R95). -/
def execSt (sr : Reg) (off9 : BitVec 9) (s : State) : Host.Outcome State Fault Refusal :=
  .next (s.memWrite (s.pcRelative off9) (s.reg sr))

/-- STI (R96): the pointer read may poll, the store does nothing else. -/
def execSti (sr : Reg) (off9 : BitVec 9) (s : State) : Host.Outcome State Fault Refusal :=
  let p := s.indirect off9
  .next (p.2.memWrite p.1 (p.2.reg sr))

/-- STR (R97). -/
def execStr (sr baseR : Reg) (off6 : BitVec 6) (s : State) : Host.Outcome State Fault Refusal :=
  .next (s.memWrite (s.basePlusOffset baseR off6) (s.reg sr))

end Sys2Proof.Machine
end

