-- ==== Sys2Proof/Machine/Trap.lean ====
section
/-! DEFINITION. The trap dispatcher and its six services (spec/44_trap.md R103-R113). A service starts in the state
after R103's write of R7. No service writes pc. -/

namespace Sys2Proof.Machine

/-! ## GETC -/

/-- R0 <- the character, zero-extended, then setcc (R105, R108). -/
def State.takeCharacter (c : Byte) (s : State) : State := s.writeResult serviceReg (zextField c)

/-- GETC (R105), from InRead() on: with no character there it waits (R112). -/
def serviceGetc (s : State) : State :=
  match s.inRead with
  | none => s.setWait .getc
  | some (c, t) => t.takeCharacter c

/-! ## OUT -/

/-- OUT (R106). -/
def serviceOut (s : State) : Ran := (s.outByte (lowByte (s.reg serviceReg))).andThen State.flush

/-! ## PUTS and PUTSP -/

/-- The loop of PUTS (R107) for at most `fuel` words; none: it has not ended by then. -/
def putsLoop : Nat → Word → State → Option Ran
  | 0, _, _ => none
  | fuel + 1, a, s =>
    let r := s.stringRead a
    if r.1 = 0x0000#16 then some r.2.flush
    else
      match r.2.outByte (lowByte r.1) with
      | .ended t => some (.ended t)
      | .goesOn t => putsLoop fuel (a + 1) t

/-- The loop of PUTSP (R109) for at most `fuel` words; none: it has not ended by then. -/
def putspLoop : Nat → Word → State → Option Ran
  | 0, _, _ => none
  | fuel + 1, a, s =>
    let r := s.stringRead a
    if lowByte r.1 = 0x00#8 then some r.2.flush
    else
      match r.2.outByte (lowByte r.1) with
      | .ended t => some (.ended t)
      | .goesOn t =>
        if highByte r.1 = 0x00#8 then some t.flush
        else
          match t.outByte (highByte r.1) with
          | .ended u => some (.ended u)
          | .goesOn u => putspLoop fuel (a + 1) u

/-- A number of words after which a string loop that has not ended never ends. One pass over all 65536 addresses
changes nothing but what polls at KBSR_ADDR do, each of which takes a character of `inq` or ends the string; and each
word that does not end the string costs an output draw (log 8). -/
def stringFuel (s : State) : Nat :=
  65536 * (s.inq.length + 1) + (match s.outFailAt with | none => 0 | some n => n + 1)

/-- PUTS (R107); none: its loop never ends (U8). -/
def servicePuts (s : State) : Option Ran := putsLoop (stringFuel s) (s.reg serviceReg) s

/-- PUTSP (R109); none: its loop never ends (U8). -/
def servicePutsp (s : State) : Option Ran := putspLoop (stringFuel s) (s.reg serviceReg) s

/-! ## IN -/

/-- IN from the echo on (R108): echo, flush, write R0, setcc. -/
def echoCharacter (c : Byte) (s : State) : Ran :=
  ((s.outByte c).andThen State.flush).andThen (fun t => .goesOn (t.takeCharacter c))

/-- IN from InRead() on (R108): with no character there it waits (R112). -/
def inputFromRead (s : State) : Ran :=
  match s.inRead with
  | none => .goesOn (s.setWait .input)
  | some (c, t) => echoCharacter c t

/-- IN (R108): the prompt, a flush, then the read. -/
def serviceIn (s : State) : Ran :=
  ((outBytes s.cfg.inPrompt s).andThen State.flush).andThen inputFromRead

/-! ## HALT -/

/-- HALT (R110): flush, the notice, flush, then HALTED(Halt). -/
def serviceHalt (s : State) : Ran :=
  ((s.flush.andThen (fun t => outBytes t.cfg.haltNotice t)).andThen State.flush).andThen
    (fun t => .goesOn (t.haltWith .halt))

/-! ## The outcomes -/

/-- A service that ended, or failed, leaves its state. -/
def Ran.outcome (r : Ran) : Host.Outcome State Fault Refusal := .next r.state

/-- A string service whose loop never ends has no next state (R107, R109, U8). -/
def stringOutcome : Option Ran → Host.Outcome State Fault Refusal
  | none => .fault .stringNeverEnds
  | some r => r.outcome

/-- The service of the dispatcher's case (R103, R104), after the write of R7. -/
def serviceOutcome (v : Service) (s : State) : Host.Outcome State Fault Refusal :=
  match v with
  | .getc => .next (serviceGetc s)
  | .out => (serviceOut s).outcome
  | .puts => stringOutcome (servicePuts s)
  | .input => (serviceIn s).outcome
  | .putsp => stringOutcome (servicePutsp s)
  | .halt => (serviceHalt s).outcome

/-! ## The meanings -/

/-- TRAP with any vector (R103): R7 first, then the case on the vector. -/
def execTrap (high : BitVec 4) (trapvect8 : BitVec 8) (s : State) : Host.Outcome State Fault Refusal :=
  match serviceOf trapvect8 with
  | some v => serviceOutcome v s.link
  | none => .next (s.link.raiseInvalidOpcode (fmtT high trapvect8))

/-- TRAP x20, GETC (R103, R105). -/
def execTrapGetc (s : State) : Host.Outcome State Fault Refusal := serviceOutcome .getc s.link

/-- TRAP x21, OUT (R103, R106). -/
def execTrapOut (s : State) : Host.Outcome State Fault Refusal := serviceOutcome .out s.link

/-- TRAP x22, PUTS (R103, R107). -/
def execTrapPuts (s : State) : Host.Outcome State Fault Refusal := serviceOutcome .puts s.link

/-- TRAP x23, IN (R103, R108). -/
def execTrapIn (s : State) : Host.Outcome State Fault Refusal := serviceOutcome .input s.link

/-- TRAP x24, PUTSP (R103, R109). -/
def execTrapPutsp (s : State) : Host.Outcome State Fault Refusal := serviceOutcome .putsp s.link

/-- TRAP x25, HALT (R103, R110). -/
def execTrapHalt (s : State) : Host.Outcome State Fault Refusal := serviceOutcome .halt s.link

/-- TRAP with an undefined vector (R111): InvalidOpcode after the write of R7. -/
def execTrapUndefined (high : BitVec 4) (trapvect8 : BitVec 8) (s : State) : Host.Outcome State Fault Refusal :=
  .next (s.link.raiseInvalidOpcode (fmtT high trapvect8))

end Sys2Proof.Machine
end

