-- ==== Sys2Proof/Machine/Cycle.lean ====
section
/-! DEFINITION. The parts of one cycle (spec/40_fetch_decode_dispatch.md R77-R80; spec/44_trap.md R112). -/

namespace Sys2Proof.Machine

/-- Fetch (R78): the word at pc through MemRead, then the increment. -/
def State.fetch (s : State) : Word × State :=
  let r := s.memRead s.pc
  (r.1, r.2.setPc (s.pc + 1))

/-- A cycle with no service waiting (R77): the stop check, then fetch, decode and execute. -/
def cycle (s : State) : Host.Outcome State Fault Refusal :=
  if s.stop then .next (s.haltWith .stopped)
  else
    let f := s.fetch
    exec (decode f.1) f.2

/-- A waiting service goes on from InRead(); with no character there it waits on (R112). -/
def resumeService (w : Wait) (s : State) : State :=
  match w with
  | .ready => s
  | .getc => serviceGetc (s.setWait .ready)
  | .input => (inputFromRead (s.setWait .ready)).state

/-- A look of a waiting service (R112): a stop request ends the run and a character lets the service go on. Where both
are there, R112 gives no order; that the stop wins and the character stays in `inq` is a DESIGN CHOICE (log 17). With
neither, the core has no enabled step: the host's turn alone is the step if it had one (`hostMoved`), and otherwise
there is none (log 7). -/
def waitCycle (hostMoved : Bool) (w : Wait) (s : State) : Host.Outcome State Fault Refusal :=
  if s.stop then .next (s.haltWith .stopped)
  else if s.inAvail || hostMoved then .next (resumeService w s)
  else .fault .waitingForInput

/-- One step of the machine: nothing in HALTED (R77); else the host's turn, if it has one, and then a cycle, or a look
of the waiting service. -/
def machineStep (s : State) : Host.Outcome State Fault Refusal :=
  match s.run with
  | .halted reason => .fault (.halted reason)
  | .running =>
    match s.wait with
    | .ready => cycle s.hostTurn
    | .getc => waitCycle (!s.host.isEmpty) .getc s.hostTurn
    | .input => waitCycle (!s.host.isEmpty) .input s.hostTurn

/-- A word stored where the next fetch reads: at pc. -/
def State.withWordAtPc (s : State) (w : Word) : State := s.store s.pc w

end Sys2Proof.Machine
end

