-- ==== Sys2Proof/Machine/Step.lean ====
section
/-! DEFINITION. The step function, and where the host places a word for it. -/

namespace Sys2Proof.Machine

/-- One step (R77): see Machine/Cycle.lean. -/
def step (s : State) : Host.Outcome State Fault Refusal := machineStep s

/-- `s` with the table's word stored at pc, where the next step fetches. Programs come to run by `load_image` before
the first cycle (R134); this stands for that load (log 16). A row is 16 bits wide (R59); the bits above `nbits` are 0. -/
def State.withFetchWord (s : State) (nbits w : Nat) : State :=
  s.withWordAtPc (BitVec.ofNat 16 (w % 2 ^ nbits))

end Sys2Proof.Machine
end

