-- ==== Sys2Proof/Machine/Startup.lean ====
section
/-! DEFINITION. Image loading (spec/20_memory.md R50-R52), start-up (spec/70_reset_and_hazards.md R134), and the host's
exit codes (spec/60_exceptions.md R133). -/

namespace Sys2Proof.Machine

/-- What the core receives of an image: `(words, origin)` (R51). -/
structure Image where
  origin : Word
  words : List Word
  deriving DecidableEq, Repr

/-- Store words at rising addresses from `a`. -/
def Memory.writeWords : List Word → Nat → Memory → Memory
  | [], _, m => m
  | w :: rest, a, m => Memory.writeWords rest (a + 1) (m.write a w)

/-- `load_image(words, origin)` (R50): at most 65536 - origin words, no wrap, no interception; only memory changes. -/
def loadImage (i : Image) (s : State) : State :=
  { s with mem := Memory.writeWords (i.words.take (65536 - i.origin.toNat)) i.origin.toNat s.mem }

/-- The big-endian words of a file's bytes; none for an odd number of bytes (R51, D26). -/
def wordsOfBytes : List Byte → Option (List Word)
  | [] => some []
  | [_] => none
  | hi :: lo :: rest => (wordsOfBytes rest).map ((hi ++ lo) :: ·)

/-- An image file: its first word is the origin (R51). None: a malformed file, of which the spec says nothing
(D26, U15; log 13). -/
def Image.ofBytes (bytes : List Byte) : Option Image :=
  match wordsOfBytes bytes with
  | some (origin :: words) => some ⟨origin, words⟩
  | _ => none

/-- The images one after another, in the order given (R52); none if one of them fails to load (R117). -/
def loadImages : List (Option Image) → State → Option State
  | [], s => some s
  | none :: _, _ => none
  | some i :: rest, s => loadImages rest (loadImage i s)

/-- How a start-up ends: the loop runs from a state, or the host exits with a code. -/
inductive Start where
  | runs (s : State)
  | exits (code : Nat)
  deriving DecidableEq, Repr

/-- Start-up (R134): reset, the images, then the loop; exit code 2 if no image is given, 1 if one fails to load
(R133). An image is none where it is missing or unreadable (R117). -/
def startUp (cfg : Config) (inq : List Byte) (images : List (Option Image)) : Start :=
  match images with
  | [] => .exits 2
  | _ :: _ =>
    match loadImages images (State.resetWith cfg inq) with
    | none => .exits 1
    | some s => .runs s

/-- The host's exit code after a run (R133); after a fatal error or a stop it is open (D19; log 12). -/
def HaltReason.exitCode : HaltReason → Nat
  | .halt => 0
  | .invalidOpcode _ _ => Config.exitCodeFatal
  | .outputFailure => Config.exitCodeFatal
  | .stopped => Config.exitCodeStop

/-- The spec's own numbering of the fault classes (R114, D12); none for an end that is no fault. ImageLoadError, code 3,
never reaches the core (R117). -/
def HaltReason.causeCode : HaltReason → Option Nat
  | .halt => none
  | .invalidOpcode _ _ => some 1
  | .outputFailure => some 2
  | .stopped => none

end Sys2Proof.Machine
end

