-- ==== Sys2Proof/WellFormed.lean ====
section
/-! DEFINITION. Which instruction terms are the decoder's own form of a word. Every field already has the width the
spec gives it, so the only checks are on the TRAP rows, which overlap in opcode_table.json. -/

namespace Sys2Proof

/-- An instruction is well formed if it is the row the spec gives its word.
`trapUndefined` is for vectors that are no service (R111).
The bare `trap` row is the common part of every TRAP (R103): its words belong to the service rows and to
`trapUndefined`, so it is no decoded form (log 11). -/
def Instr.wellFormed : Instr → Bool
  | .br _ _ _ _ => true
  | .addReg _ _ _ => true
  | .addImm _ _ _ => true
  | .ld _ _ => true
  | .st _ _ => true
  | .jsrr _ => true
  | .jsr _ => true
  | .andReg _ _ _ => true
  | .andImm _ _ _ => true
  | .ldr _ _ _ => true
  | .str _ _ _ => true
  | .opcode8 _ => true
  | .notReg _ _ => true
  | .ldi _ _ => true
  | .sti _ _ => true
  | .jmp _ => true
  | .opcode13 _ => true
  | .lea _ _ => true
  | .trap _ _ => false
  | .trapGetc => true
  | .trapOut => true
  | .trapPuts => true
  | .trapIn => true
  | .trapPutsp => true
  | .trapHalt => true
  | .trapUndefined _ trapvect8 => (serviceOf trapvect8).isNone

end Sys2Proof
end

