-- ==== Sys2Proof/Safety.lean ====
section
/-! DEFINITION. The terms the claims use: the invariant of the machine, what an instruction leaves alone, what the
rules of the spec say in plain arithmetic, and the string services' loops as relations without fuel. -/

namespace Sys2Proof.Machine

/-! ## The invariant -/

/-- What holds in every state a run reaches: memory has its canonical form, no more bytes are visible than were
written, and no service waits once the run has ended (R30, R112). -/
structure State.Inv (s : State) : Prop where
  memory : s.mem.wf = true
  visible : s.flushed ≤ s.out.length
  waiting : s.wait = .ready ∨ s.run = .running

/-! ## Frames -/

/-- Every general register keeps its value but those in `rs`. -/
def SameRegsBut (rs : List Reg) (s t : State) : Prop := ∀ r : Reg, r ∉ rs → t.reg r = s.reg r

/-- Every word of memory reads as before. -/
def SameMemory (s t : State) : Prop := ∀ a : Word, t.stored a = s.stored a

/-- Every word of memory reads as before, but the one at `ea`. -/
def SameMemoryBut (ea : Word) (s t : State) : Prop := ∀ a : Word, a ≠ ea → t.stored a = s.stored a

/-- The input side is as before: `inq` and `stop` and the host's coming turns. -/
def SameInput (s t : State) : Prop := t.inq = s.inq ∧ t.stop = s.stop ∧ t.host = s.host

/-- The output side is as before: `out`, what is visible of it, and the host's coming draws. -/
def SameOutput (s t : State) : Prop := t.out = s.out ∧ t.flushed = s.flushed ∧ t.outFailAt = s.outFailAt

/-- The run state, the waiting service and the parameters are as before. -/
def SameControl (s t : State) : Prop := t.run = s.run ∧ t.wait = s.wait ∧ t.cfg = s.cfg

/-- Everything but registers, pc and `cond` is as before. -/
def SameOutside (s t : State) : Prop := SameMemory s t ∧ SameInput s t ∧ SameOutput s t ∧ SameControl s t

/-! ## The condition flag in plain arithmetic -/

/-- R82 on the value read as a number: ZERO for 0, NEG for bit 15 set, POS otherwise. -/
def FlagOf (v : Word) (c : Cond) : Prop :=
  (v.toNat = 0 → c = .zero) ∧ (0x8000 ≤ v.toNat → c = .neg) ∧ (0 < v.toNat → v.toNat < 0x8000 → c = .pos)

/-- What a flag-affecting instruction with destination `dr` and result `v` leaves in registers, pc and `cond`, from the
state `s` in which it writes (R27, R82). -/
def WritesResult (dr : Reg) (v : Word) (s t : State) : Prop :=
  t.reg dr = v ∧ FlagOf v t.cond ∧ SameRegsBut [dr] s t ∧ t.pc = s.pc

/-! ## The value of a signed field -/

/-- The signed (two's complement) value of an n-bit field, added to a word modulo 2^16 (R11, R12). -/
def plusSigned {n : Nat} (base : Word) (f : BitVec n) : Word := BitVec.ofInt 16 ((base.toNat : Int) + f.toInt)

/-! ## The bytes of a word in plain arithmetic (R45) -/

/-- The byte of bits 7:0. -/
def loByte (w : Word) : Byte := BitVec.ofNat 8 (w.toNat % 256)

/-- The byte of bits 15:8. -/
def hiByte (w : Word) : Byte := BitVec.ofNat 8 (w.toNat / 256)

/-! ## The string loops, as R107 and R109 write them -/

/-- What the string read `MemRead(a, 1)` of R107 and R109 gives from `s`: the word `w` and the state `t`. It is `mem[a]`,
with no poll, when TRAP_READ_INTERCEPTS is false (R43, D17). -/
def StringReads (a : Word) (s : State) (w : Word) (t : State) : Prop :=
  (s.cfg.trapReadIntercepts = true → s.memRead a = (w, t)) ∧
  (s.cfg.trapReadIntercepts = false → s.stored a = w ∧ s = t)

/-- The loop of PUTS from address `a` in state `s` ends as `r` (R107). -/
inductive PutsRuns : Word → State → Ran → Prop where
  | zeroWord {a w : Word} {s u : State} : StringReads a s w u → w = 0#16 → PutsRuns a s u.flush
  | fails {a w : Word} {s u t : State} :
      StringReads a s w u → w ≠ 0#16 → u.outByte (loByte w) = .ended t → PutsRuns a s (.ended t)
  | more {a w : Word} {s u t : State} {r : Ran} :
      StringReads a s w u → w ≠ 0#16 → u.outByte (loByte w) = .goesOn t → PutsRuns (a + 1) t r → PutsRuns a s r

/-- The loop of PUTSP from address `a` in state `s` ends as `r` (R109). -/
inductive PutspRuns : Word → State → Ran → Prop where
  | zeroLow {a w : Word} {s u : State} : StringReads a s w u → loByte w = 0#8 → PutspRuns a s u.flush
  | failsLow {a w : Word} {s u t : State} :
      StringReads a s w u → loByte w ≠ 0#8 → u.outByte (loByte w) = .ended t → PutspRuns a s (.ended t)
  | zeroHigh {a w : Word} {s u t : State} :
      StringReads a s w u → loByte w ≠ 0#8 → u.outByte (loByte w) = .goesOn t → hiByte w = 0#8 →
      PutspRuns a s t.flush
  | failsHigh {a w : Word} {s u t v : State} :
      StringReads a s w u → loByte w ≠ 0#8 → u.outByte (loByte w) = .goesOn t → hiByte w ≠ 0#8 →
      t.outByte (hiByte w) = .ended v → PutspRuns a s (.ended v)
  | more {a w : Word} {s u t v : State} {r : Ran} :
      StringReads a s w u → loByte w ≠ 0#8 → u.outByte (loByte w) = .goesOn t → hiByte w ≠ 0#8 →
      t.outByte (hiByte w) = .goesOn v → PutspRuns (a + 1) v r → PutspRuns a s r

/-! ## Output that does not fail -/

/-- The next `k` calls of Out or Flush succeed (D14: a claim that needs success takes it as a premise). -/
def OutputGood (k : Nat) (s : State) : Prop := s.outFailAt = none ∨ ∃ n, s.outFailAt = some n ∧ k ≤ n

/-! ## Which instructions write what -/

/-- The general registers an instruction may write (R20). `trap` is every TRAP (R103). -/
def regWrites : Instr → List Reg
  | .br _ _ _ _ => []
  | .addReg dr _ _ => [dr]
  | .addImm dr _ _ => [dr]
  | .ld dr _ => [dr]
  | .st _ _ => []
  | .jsrr _ => [linkReg]
  | .jsr _ => [linkReg]
  | .andReg dr _ _ => [dr]
  | .andImm dr _ _ => [dr]
  | .ldr dr _ _ => [dr]
  | .str _ _ _ => []
  | .opcode8 _ => []
  | .notReg dr _ => [dr]
  | .ldi dr _ => [dr]
  | .sti _ _ => []
  | .jmp _ => []
  | .opcode13 _ => []
  | .lea dr _ => [dr]
  | .trap _ _ => [linkReg, serviceReg]
  | .trapGetc => [linkReg, serviceReg]
  | .trapOut => [linkReg]
  | .trapPuts => [linkReg]
  | .trapIn => [linkReg, serviceReg]
  | .trapPutsp => [linkReg]
  | .trapHalt => [linkReg]
  | .trapUndefined _ _ => [linkReg]

/-- The destination whose new value sets `cond` (R27): DR of ADD, AND, NOT, LD, LDI, LDR and LEA, and R0 of GETC and
IN; none for every other instruction. -/
def flagDest : Instr → Option Reg
  | .addReg dr _ _ => some dr
  | .addImm dr _ _ => some dr
  | .andReg dr _ _ => some dr
  | .andImm dr _ _ => some dr
  | .notReg dr _ => some dr
  | .ld dr _ => some dr
  | .ldi dr _ => some dr
  | .ldr dr _ _ => some dr
  | .lea dr _ => some dr
  | .trapGetc => some serviceReg
  | .trapIn => some serviceReg
  | .trap _ v => if serviceOf v = some .getc ∨ serviceOf v = some .input then some serviceReg else none
  | .br _ _ _ _ => none
  | .st _ _ => none
  | .sti _ _ => none
  | .str _ _ _ => none
  | .jmp _ => none
  | .jsr _ => none
  | .jsrr _ => none
  | .opcode8 _ => none
  | .opcode13 _ => none
  | .trapOut => none
  | .trapPuts => none
  | .trapPutsp => none
  | .trapHalt => none
  | .trapUndefined _ _ => none

/-- BR, JMP, JSR and JSRR: the instructions that transfer control (R24, R98). -/
def transfersControl : Instr → Bool
  | .br _ _ _ _ => true
  | .jmp _ => true
  | .jsr _ => true
  | .jsrr _ => true
  | _ => false

/-- ST, STI and STR: the instructions that store (R95-R97). -/
def storesToMemory : Instr → Bool
  | .st _ _ => true
  | .sti _ _ => true
  | .str _ _ _ => true
  | _ => false

/-- The instructions that raise InvalidOpcode (R115). -/
def isInvalid : Instr → Bool
  | .opcode8 _ => true
  | .opcode13 _ => true
  | .trapUndefined _ _ => true
  | .trap _ v => (serviceOf v).isNone
  | _ => false

/-- The service a TRAP runs, if the instruction is one. -/
def serviceRun : Instr → Option Service
  | .trap _ v => serviceOf v
  | .trapGetc => some .getc
  | .trapOut => some .out
  | .trapPuts => some .puts
  | .trapIn => some .input
  | .trapPutsp => some .putsp
  | .trapHalt => some .halt
  | _ => none

end Sys2Proof.Machine
end

