-- ==== Sys2Proof/Certificates/Slice0/Obligations.lean ====
section
/-! DEFINITION. The statements for the provers. Each docstring names the rule of spec/ it formalises. `exec` runs on the
state after the fetch, so `s.pc` is the instruction's address plus 1 there (R78). Field positions, opcode numbers and
trap vectors are the spec's decisions D1, D2 and D4 (log 14). -/

open Sys2Proof Sys2Proof.Machine

/-! ## Reset, the cycle and the end of a run -/

/-- R36, for any parameters and any characters typed ahead; that `stop` is false and `out` empty is the spec's decision
D23. Loading an image leaves `pc` at 0x3000. -/
def Obligations.ResetState : Prop :=
  ∀ (cfg : Config) (q : List Byte),
    (∀ r : Reg, (State.resetWith cfg q).reg r = 0x0000#16) ∧
    (State.resetWith cfg q).pc = 0x3000#16 ∧
    (State.resetWith cfg q).cond = .zero ∧
    (∀ a : Word, (State.resetWith cfg q).stored a = 0x0000#16) ∧
    (State.resetWith cfg q).run = .running ∧
    (State.resetWith cfg q).stop = false ∧
    (State.resetWith cfg q).out = [] ∧
    (State.resetWith cfg q).inq = q ∧
    ∀ i : Image, (loadImage i (State.resetWith cfg q)).pc = 0x3000#16

/-- R30 and R77: HALTED is terminal, whatever the reason; that the model answers with the fault `halted` is its own
convention (log 7). R77 and R112: a stop request seen before the fetch, or while GETC or IN waits, ends the run as
HALTED(Stopped), and nothing else happens in that step (the spec's decision D13), but that no service waits any more
(log 6). The host's turn comes first (log 3). That the stop wins when a waiting service also has a character there is
the model's choice (log 17). -/
def Obligations.HaltedOrStoppedRunsNothing : Prop :=
  (∀ (s : State) (reason : HaltReason), s.run = .halted reason → step s = .fault (.halted reason)) ∧
  ∀ s : State, s.run = .running → s.hostTurn.stop = true →
    ∃ t, step s = .next t ∧ t.run = .halted .stopped ∧ t.wait = .ready ∧ t.pc = s.pc ∧ t.cond = s.cond ∧
      SameRegsBut [] s t ∧ SameMemory s t ∧ SameInput s.hostTurn t ∧ SameOutput s.hostTurn t ∧ t.cfg = s.cfg

/-- R77 to R80: a RUNNING machine with no service waiting and no stop request fetches through `MemRead`, increments pc,
decodes the word it read and executes that instruction. -/
def Obligations.StepRunsDecodedInstruction : Prop :=
  ∀ s : State, s.run = .running → s.wait = .ready → s.hostTurn.stop = false →
    step s = exec (decode (s.hostTurn.memRead s.pc).1) ((s.hostTurn.memRead s.pc).2.setPc (s.pc + 1))

/-- R83 and R115: a step that ends a run does so for one of the four reasons, each from its own cause. HALTED(Halt)
comes from the HALT trap, HALTED(InvalidOpcode) records the address and the very word that were fetched (D11),
HALTED(OutputFailure) needs a failing output draw, and HALTED(Stopped) a stop request, which also wins over a character
that a waiting service has there (the model's choice, log 17). -/
def Obligations.RunEndsOnlyByItsCauses : Prop :=
  ∀ s t : State, step s = .next t →
    (t.run = .halted .halt →
      s.hostTurn.stop = false ∧ s.wait = .ready ∧ decode s.hostTurn.fetch.1 = .trapHalt) ∧
    (∀ addr word, t.run = .halted (.invalidOpcode addr word) →
      s.hostTurn.stop = false ∧ s.wait = .ready ∧ addr = s.pc ∧ word = s.hostTurn.fetch.1 ∧
        isInvalid (decode word) = true) ∧
    (t.run = .halted .outputFailure → s.hostTurn.stop = false ∧ s.outFailAt ≠ none) ∧
    (t.run = .halted .stopped ↔ s.hostTurn.stop = true)

/-! ## Decoding and encoding -/

/-- R73, R61, R72, R74, R111: every word of a row of the opcode table, given by its match and mask, decodes to that
row's instruction with the fields at their positions; ignored bits are free (D1, D2, D4, D8; log 14, log 15). -/
def Obligations.DecodeFollowsOpcodeTable : Prop :=
  ∀ w : Word,
    (w &&& 0xF000#16 = 0x0000#16 →
      decode w = .br (w.getLsbD 11) (w.getLsbD 10) (w.getLsbD 9) (w.extractLsb' 0 9)) ∧
    (w &&& 0xF020#16 = 0x1000#16 →
      decode w = .addReg (w.extractLsb' 9 3).toFin (w.extractLsb' 6 3).toFin (w.extractLsb' 0 3).toFin) ∧
    (w &&& 0xF020#16 = 0x1020#16 →
      decode w = .addImm (w.extractLsb' 9 3).toFin (w.extractLsb' 6 3).toFin (w.extractLsb' 0 5)) ∧
    (w &&& 0xF000#16 = 0x2000#16 → decode w = .ld (w.extractLsb' 9 3).toFin (w.extractLsb' 0 9)) ∧
    (w &&& 0xF000#16 = 0x3000#16 → decode w = .st (w.extractLsb' 9 3).toFin (w.extractLsb' 0 9)) ∧
    (w &&& 0xF800#16 = 0x4000#16 → decode w = .jsrr (w.extractLsb' 6 3).toFin) ∧
    (w &&& 0xF800#16 = 0x4800#16 → decode w = .jsr (w.extractLsb' 0 11)) ∧
    (w &&& 0xF020#16 = 0x5000#16 →
      decode w = .andReg (w.extractLsb' 9 3).toFin (w.extractLsb' 6 3).toFin (w.extractLsb' 0 3).toFin) ∧
    (w &&& 0xF020#16 = 0x5020#16 →
      decode w = .andImm (w.extractLsb' 9 3).toFin (w.extractLsb' 6 3).toFin (w.extractLsb' 0 5)) ∧
    (w &&& 0xF000#16 = 0x6000#16 →
      decode w = .ldr (w.extractLsb' 9 3).toFin (w.extractLsb' 6 3).toFin (w.extractLsb' 0 6)) ∧
    (w &&& 0xF000#16 = 0x7000#16 →
      decode w = .str (w.extractLsb' 9 3).toFin (w.extractLsb' 6 3).toFin (w.extractLsb' 0 6)) ∧
    (w &&& 0xF000#16 = 0x8000#16 → decode w = .opcode8 (w.extractLsb' 0 12)) ∧
    (w &&& 0xF000#16 = 0x9000#16 → decode w = .notReg (w.extractLsb' 9 3).toFin (w.extractLsb' 6 3).toFin) ∧
    (w &&& 0xF000#16 = 0xA000#16 → decode w = .ldi (w.extractLsb' 9 3).toFin (w.extractLsb' 0 9)) ∧
    (w &&& 0xF000#16 = 0xB000#16 → decode w = .sti (w.extractLsb' 9 3).toFin (w.extractLsb' 0 9)) ∧
    (w &&& 0xF000#16 = 0xC000#16 → decode w = .jmp (w.extractLsb' 6 3).toFin) ∧
    (w &&& 0xF000#16 = 0xD000#16 → decode w = .opcode13 (w.extractLsb' 0 12)) ∧
    (w &&& 0xF000#16 = 0xE000#16 → decode w = .lea (w.extractLsb' 9 3).toFin (w.extractLsb' 0 9)) ∧
    (w &&& 0xF0FF#16 = 0xF020#16 → decode w = .trapGetc) ∧
    (w &&& 0xF0FF#16 = 0xF021#16 → decode w = .trapOut) ∧
    (w &&& 0xF0FF#16 = 0xF022#16 → decode w = .trapPuts) ∧
    (w &&& 0xF0FF#16 = 0xF023#16 → decode w = .trapIn) ∧
    (w &&& 0xF0FF#16 = 0xF024#16 → decode w = .trapPutsp) ∧
    (w &&& 0xF0FF#16 = 0xF025#16 → decode w = .trapHalt) ∧
    (w &&& 0xF000#16 = 0xF000#16 → (w &&& 0x00FF#16).toNat < 0x20 ∨ 0x25 < (w &&& 0x00FF#16).toNat →
      decode w = .trapUndefined (w.extractLsb' 8 4) (w.extractLsb' 0 8))

/-- R61 and R79: decoding the word of a well-formed instruction gives it back, every operand included. -/
def Obligations.DecodeEncodeRoundTrip : Prop :=
  ∀ i : Instr, i.wellFormed = true → decode (encode i) = i

/-- R79: every word decodes to a well-formed instruction; R72: encoding it again changes ignored bits at most, so the
new word decodes alike, and a word that InvalidOpcode records is kept whole. -/
def Obligations.EveryWordDecodesWellFormed : Prop :=
  ∀ w : Word, (decode w).wellFormed = true ∧ decode (encode (decode w)) = decode w ∧
    (isInvalid (decode w) = true → encode (decode w) = w)

/-- Words written out in the rules' examples and in 95_test_vectors.md decode to the instruction they stand for. -/
def Obligations.ExampleWordsDecode : Prop :=
  decode 0x05FD#16 = .br false true false 0x1FD#9 ∧
  decode 0x1401#16 = .addReg 2 0 1 ∧
  decode 0x1025#16 = .addImm 0 0 5#5 ∧
  decode 0x2001#16 = .ld 0 1#9 ∧
  decode 0xA202#16 = .ldi 1 2#9 ∧
  decode 0x7284#16 = .str 1 2 4#6 ∧
  decode 0x4C00#16 = .jsr 0x400#11 ∧
  decode 0x46C0#16 = .jsrr 3 ∧
  decode 0x8FFF#16 = .opcode8 0xFFF#12 ∧
  decode 0xFF25#16 = .trapHalt ∧
  decode 0xF026#16 = .trapUndefined 0#4 0x26#8

/-! ## Arithmetic -/

/-- R12: sign extension of the low n bits in plain arithmetic, its idempotency, its value on an n-bit field, and zero
extension. -/
def Obligations.SignExtensionValue : Prop :=
  ∀ (n : Nat) (v : Word), 1 ≤ n → n ≤ 16 →
    (2 ^ (n - 1) ≤ v.toNat % 2 ^ n → (sext n v).toNat = v.toNat % 2 ^ n + 0x10000 - 2 ^ n) ∧
    (v.toNat % 2 ^ n < 2 ^ (n - 1) → (sext n v).toNat = v.toNat % 2 ^ n) ∧
    sext n (sext n v) = sext n v ∧
    sextField (v.setWidth n) = sext n v ∧
    (zext n v).toNat = v.toNat % 2 ^ n

/-- R82: `setcc` in plain arithmetic; it changes nothing but `cond`; and it is applied to the destination after the
write. -/
def Obligations.SetccFollowsValue : Prop :=
  ∀ (s : State) (v : Word) (dr : Reg),
    FlagOf v (s.setcc v).cond ∧ SameRegsBut [] s (s.setcc v) ∧ (s.setcc v).pc = s.pc ∧ SameOutside s (s.setcc v) ∧
    (s.writeResult dr v).reg dr = v ∧ FlagOf ((s.writeResult dr v).reg dr) (s.writeResult dr v).cond

/-- R84: the three ALU operations in plain arithmetic. -/
def Obligations.AluOperations : Prop :=
  ∀ a b : Word,
    (aluAdd a b).toNat = (a.toNat + b.toNat) % 2 ^ 16 ∧
    (∀ i : Nat, (aluAnd a b).getLsbD i = (a.getLsbD i && b.getLsbD i)) ∧
    (aluNot a).toNat = 0xFFFF - a.toNat

/-! ## ADD, AND, NOT: encoding, completion, result, flags and frame -/

/-- R85: ADD, register mode; bits 4:3 (`x`) are free; DR may equal a source. -/
def Obligations.AddRegisterMode : Prop :=
  ∀ (dr sr1 sr2 : Reg) (x : BitVec 2) (s : State),
    decode (fmtRR 0b0001#4 dr sr1 x sr2) = .addReg dr sr1 sr2 ∧
    ∃ t v, exec (.addReg dr sr1 sr2) s = .next t ∧
      v.toNat = ((s.reg sr1).toNat + (s.reg sr2).toNat) % 2 ^ 16 ∧ WritesResult dr v s t ∧ SameOutside s t

/-- R86: ADD, immediate mode, the immediate read as a signed number. -/
def Obligations.AddImmediateMode : Prop :=
  ∀ (dr sr1 : Reg) (imm5 : BitVec 5) (s : State),
    decode (fmtRI 0b0001#4 dr sr1 imm5) = .addImm dr sr1 imm5 ∧
    ∃ t, exec (.addImm dr sr1 imm5) s = .next t ∧
      WritesResult dr (plusSigned (s.reg sr1) imm5) s t ∧ SameOutside s t

/-- R87: AND, register mode; bits 4:3 (`x`) are free. -/
def Obligations.AndRegisterMode : Prop :=
  ∀ (dr sr1 sr2 : Reg) (x : BitVec 2) (s : State),
    decode (fmtRR 0b0101#4 dr sr1 x sr2) = .andReg dr sr1 sr2 ∧
    ∃ t v, exec (.andReg dr sr1 sr2) s = .next t ∧
      (∀ i : Nat, v.getLsbD i = ((s.reg sr1).getLsbD i && (s.reg sr2).getLsbD i)) ∧
      WritesResult dr v s t ∧ SameOutside s t

/-- R88: AND, immediate mode: the mask is the sign-extended immediate and applies to the value of SR1 (C1). -/
def Obligations.AndImmediateMode : Prop :=
  ∀ (dr sr1 : Reg) (imm5 : BitVec 5) (s : State),
    decode (fmtRI 0b0101#4 dr sr1 imm5) = .andImm dr sr1 imm5 ∧
    ∃ t v, exec (.andImm dr sr1 imm5) s = .next t ∧
      (∀ i : Nat, i < 16 → v.getLsbD i = ((s.reg sr1).getLsbD i && imm5.getLsbD (min i 4))) ∧
      WritesResult dr v s t ∧ SameOutside s t

/-- R89: NOT; bits 5:0 (`x`) are free. -/
def Obligations.NotComplements : Prop :=
  ∀ (dr sr : Reg) (x : BitVec 6) (s : State),
    decode (fmtR2 dr sr x) = .notReg dr sr ∧
    ∃ t v, exec (.notReg dr sr) s = .next t ∧ v.toNat = 0xFFFF - (s.reg sr).toNat ∧
      WritesResult dr v s t ∧ SameOutside s t

/-! ## Loads and stores -/

/-- R91: LD. The read is `MemRead` at pc plus the signed offset; away from KBSR_ADDR it loads the stored word and
changes nothing else. -/
def Obligations.LoadPcRelative : Prop :=
  ∀ (dr : Reg) (off9 : BitVec 9) (s : State),
    decode (fmtPC9 0b0010#4 dr off9) = .ld dr off9 ∧
    ∃ t, exec (.ld dr off9) s = .next t ∧
      WritesResult dr (s.memRead (plusSigned s.pc off9)).1 s t ∧
      SameOutside (s.memRead (plusSigned s.pc off9)).2 t ∧
      (plusSigned s.pc off9 ≠ s.cfg.kbsrAddr → t.reg dr = s.stored (plusSigned s.pc off9) ∧ SameOutside s t)

/-- R92: LDI. The pointer read first, then the read at the pointer, each a `MemRead`; DR is written after both. -/
def Obligations.LoadIndirect : Prop :=
  ∀ (dr : Reg) (off9 : BitVec 9) (s : State),
    decode (fmtPC9 0b1010#4 dr off9) = .ldi dr off9 ∧
    ∃ t p v, exec (.ldi dr off9) s = .next t ∧
      p = s.memRead (plusSigned s.pc off9) ∧ v = p.2.memRead p.1 ∧
      WritesResult dr v.1 s t ∧ SameOutside v.2 t ∧
      (plusSigned s.pc off9 ≠ s.cfg.kbsrAddr → s.stored (plusSigned s.pc off9) ≠ s.cfg.kbsrAddr →
        t.reg dr = s.stored (s.stored (plusSigned s.pc off9)) ∧ SameOutside s t)

/-- R93: LDR. The base is read before DR is written. -/
def Obligations.LoadBaseOffset : Prop :=
  ∀ (dr baseR : Reg) (off6 : BitVec 6) (s : State),
    decode (fmtB6 0b0110#4 dr baseR off6) = .ldr dr baseR off6 ∧
    ∃ t, exec (.ldr dr baseR off6) s = .next t ∧
      WritesResult dr (s.memRead (plusSigned (s.reg baseR) off6)).1 s t ∧
      SameOutside (s.memRead (plusSigned (s.reg baseR) off6)).2 t ∧
      (plusSigned (s.reg baseR) off6 ≠ s.cfg.kbsrAddr →
        t.reg dr = s.stored (plusSigned (s.reg baseR) off6) ∧ SameOutside s t)

/-- R94: LEA. The address itself, flags set from it, and no memory access, so no poll at any address. -/
def Obligations.LoadEffectiveAddress : Prop :=
  ∀ (dr : Reg) (off9 : BitVec 9) (s : State),
    decode (fmtPC9 0b1110#4 dr off9) = .lea dr off9 ∧
    ∃ t, exec (.lea dr off9) s = .next t ∧ WritesResult dr (plusSigned s.pc off9) s t ∧ SameOutside s t

/-- R95: ST. The word at pc plus the signed offset becomes SR's value; nothing else changes. -/
def Obligations.StorePcRelative : Prop :=
  ∀ (sr : Reg) (off9 : BitVec 9) (s : State),
    decode (fmtPC9 0b0011#4 sr off9) = .st sr off9 ∧
    ∃ t, exec (.st sr off9) s = .next t ∧
      t.stored (plusSigned s.pc off9) = s.reg sr ∧ SameMemoryBut (plusSigned s.pc off9) s t ∧
      SameRegsBut [] s t ∧ t.pc = s.pc ∧ t.cond = s.cond ∧ SameInput s t ∧ SameOutput s t ∧ SameControl s t

/-- R96: STI. The pointer read is a `MemRead`; the word at the pointer becomes SR's value; nothing else changes but
what the pointer read changed, which is nothing away from KBSR_ADDR. -/
def Obligations.StoreIndirect : Prop :=
  ∀ (sr : Reg) (off9 : BitVec 9) (s : State),
    decode (fmtPC9 0b1011#4 sr off9) = .sti sr off9 ∧
    ∃ t p, exec (.sti sr off9) s = .next t ∧ p = s.memRead (plusSigned s.pc off9) ∧
      t.stored p.1 = s.reg sr ∧ SameMemoryBut p.1 p.2 t ∧
      SameRegsBut [] s t ∧ t.pc = s.pc ∧ t.cond = s.cond ∧ SameInput p.2 t ∧ SameOutput s t ∧ SameControl s t ∧
      (plusSigned s.pc off9 ≠ s.cfg.kbsrAddr →
        t.stored (s.stored (plusSigned s.pc off9)) = s.reg sr ∧
        SameMemoryBut (s.stored (plusSigned s.pc off9)) s t ∧ SameInput s t)

/-- R97: STR. The word at base plus the signed offset becomes SR's value; nothing else changes. -/
def Obligations.StoreBaseOffset : Prop :=
  ∀ (sr baseR : Reg) (off6 : BitVec 6) (s : State),
    decode (fmtB6 0b0111#4 sr baseR off6) = .str sr baseR off6 ∧
    ∃ t, exec (.str sr baseR off6) s = .next t ∧
      t.stored (plusSigned (s.reg baseR) off6) = s.reg sr ∧
      SameMemoryBut (plusSigned (s.reg baseR) off6) s t ∧
      SameRegsBut [] s t ∧ t.pc = s.pc ∧ t.cond = s.cond ∧ SameInput s t ∧ SameOutput s t ∧ SameControl s t

/-! ## Control flow -/

/-- R99: BR is taken exactly when the flag that `cond` holds is among n, z, p, so nzp = 111 is always taken and
nzp = 000 never; it changes only pc. -/
def Obligations.BranchOnFlags : Prop :=
  ∀ (n z p : Bool) (off9 : BitVec 9) (s : State),
    decode (fmtBR n z p off9) = .br n z p off9 ∧
    ∃ t, exec (.br n z p off9) s = .next t ∧
      ((s.cond = .neg ∧ n = true) ∨ (s.cond = .zero ∧ z = true) ∨ (s.cond = .pos ∧ p = true) →
        t.pc = plusSigned s.pc off9) ∧
      ((s.cond = .neg → n = false) ∧ (s.cond = .zero → z = false) ∧ (s.cond = .pos → p = false) →
        t.pc = s.pc) ∧
      SameRegsBut [] s t ∧ t.cond = s.cond ∧ SameOutside s t

/-- R100: JMP; bits 11:9 (`x`) and 5:0 (`y`) are free. -/
def Obligations.JumpToRegister : Prop :=
  ∀ (baseR : Reg) (x : BitVec 3) (y : BitVec 6) (s : State),
    decode (fmtB x baseR y) = .jmp baseR ∧
    ∃ t, exec (.jmp baseR) s = .next t ∧ t.pc = s.reg baseR ∧ SameRegsBut [] s t ∧ t.cond = s.cond ∧ SameOutside s t

/-- R101: JSR. R7 gets the address of the next word, pc the PC-relative target. -/
def Obligations.JumpSubroutine : Prop :=
  ∀ (off11 : BitVec 11) (s : State),
    decode (fmtPC11 off11) = .jsr off11 ∧
    ∃ t, exec (.jsr off11) s = .next t ∧ t.reg 7 = s.pc ∧ t.pc = plusSigned s.pc off11 ∧
      SameRegsBut [7] s t ∧ t.cond = s.cond ∧ SameOutside s t

/-- R102: JSRR. R7 is written first, so that JSRR R7 falls through; bits 10:9 (`x`) and 5:0 (`y`) are free. -/
def Obligations.JumpSubroutineRegister : Prop :=
  ∀ (baseR : Reg) (x : BitVec 2) (y : BitVec 6) (s : State),
    decode (fmtBJ x baseR y) = .jsrr baseR ∧
    ∃ t, exec (.jsrr baseR) s = .next t ∧ t.reg 7 = s.pc ∧
      (baseR ≠ 7 → t.pc = s.reg baseR) ∧ (baseR = 7 → t.pc = s.pc) ∧
      SameRegsBut [7] s t ∧ t.cond = s.cond ∧ SameOutside s t

/-- R81: opcodes 8 and 13 end the run as HALTED(InvalidOpcode) with the fetch address and the raw word; pc stays
incremented, and nothing else changes. No service waits after it (log 6). -/
def Obligations.InvalidOpcodesHalt : Prop :=
  ∀ (low : BitVec 12) (s : State),
    (decode (fmtILL 8#4 low) = .opcode8 low ∧
      ∃ t, exec (.opcode8 low) s = .next t ∧ t.run = .halted (.invalidOpcode (s.pc - 1) (fmtILL 8#4 low)) ∧
        t.wait = .ready ∧ t.pc = s.pc ∧ t.cond = s.cond ∧ SameRegsBut [] s t ∧ SameMemory s t ∧ SameInput s t ∧ SameOutput s t ∧
        t.cfg = s.cfg) ∧
    (decode (fmtILL 13#4 low) = .opcode13 low ∧
      ∃ t, exec (.opcode13 low) s = .next t ∧ t.run = .halted (.invalidOpcode (s.pc - 1) (fmtILL 13#4 low)) ∧
        t.wait = .ready ∧ t.pc = s.pc ∧ t.cond = s.cond ∧ SameRegsBut [] s t ∧ SameMemory s t ∧ SameInput s t ∧ SameOutput s t ∧
        t.cfg = s.cfg)

/-! ## TRAP and the services -/

/-- R103, R104, R111: a TRAP word decodes by its low 8 bits alone, and the generic TRAP does what the row of its vector
does. -/
def Obligations.TrapDispatchesOnVector : Prop :=
  (∀ (high : BitVec 4) (v : BitVec 8),
    (v.toNat = 0x20 → decode (fmtT high v) = .trapGetc) ∧
    (v.toNat = 0x21 → decode (fmtT high v) = .trapOut) ∧
    (v.toNat = 0x22 → decode (fmtT high v) = .trapPuts) ∧
    (v.toNat = 0x23 → decode (fmtT high v) = .trapIn) ∧
    (v.toNat = 0x24 → decode (fmtT high v) = .trapPutsp) ∧
    (v.toNat = 0x25 → decode (fmtT high v) = .trapHalt) ∧
    (v.toNat < 0x20 ∨ 0x25 < v.toNat → decode (fmtT high v) = .trapUndefined high v)) ∧
  ∀ (high : BitVec 4) (v : BitVec 8) (s : State), exec (.trap high v) s = exec (decode (fmtT high v)) s

/-- R103, R24: every TRAP writes the address of the next word to R7 and leaves pc there, whatever its vector. With
intercepted string reads it always has a next state (log 8). -/
def Obligations.TrapLinksAndFallsThrough : Prop :=
  ∀ (high : BitVec 4) (v : BitVec 8) (s : State),
    (∀ t, exec (.trap high v) s = .next t → t.reg 7 = s.pc ∧ t.pc = s.pc) ∧
    ((v = 0x22#8 ∨ v = 0x24#8 → s.cfg.trapReadIntercepts = true) →
      ∃ t, exec (.trap high v) s = .next t ∧ t.reg 7 = s.pc ∧ t.pc = s.pc)

/-- R105: GETC with a character there. -/
def Obligations.GetcReadsCharacter : Prop :=
  ∀ (s : State) (c : Byte) (rest : List Byte), s.inq = c :: rest →
    ∃ t, exec .trapGetc s = .next t ∧ (t.reg 0).toNat = c.toNat ∧ FlagOf (t.reg 0) t.cond ∧ t.reg 7 = s.pc ∧
      SameRegsBut [0, 7] s t ∧ t.pc = s.pc ∧ t.inq = rest ∧ t.stop = s.stop ∧ t.host = s.host ∧
      SameMemory s t ∧ SameOutput s t ∧ SameControl s t

/-- R112: GETC with no character there waits, with R7 written; so does IN once its prompt is out. -/
def Obligations.GetcAndInWaitForInput : Prop :=
  (∀ s : State, s.inq = [] →
    ∃ t, exec .trapGetc s = .next t ∧ t.wait = .getc ∧ t.run = s.run ∧ t.reg 7 = s.pc ∧ SameRegsBut [7] s t ∧
      t.pc = s.pc ∧ t.cond = s.cond ∧ SameMemory s t ∧ SameInput s t ∧ SameOutput s t ∧ t.cfg = s.cfg) ∧
  (∀ s : State, s.inq = [] → OutputGood (s.cfg.inPrompt.length + 1) s →
    ∃ t, exec .trapIn s = .next t ∧ t.wait = .input ∧ t.run = s.run ∧ t.reg 7 = s.pc ∧ SameRegsBut [7] s t ∧
      t.pc = s.pc ∧ t.cond = s.cond ∧ SameMemory s t ∧ SameInput s t ∧ t.out = s.out ++ s.cfg.inPrompt ∧
      t.flushed = t.out.length ∧ t.cfg = s.cfg)

/-- R112, R105, R108: a step of a waiting service with no stop request. A character lets it go on, for IN with the
echo. R113: if IN's echo, or the flush after it, fails, the run ends there with the character consumed and R0 and `cond`
as before. With no character, the core has no step; the host's turn alone passes if it had one (log 7). -/
def Obligations.WaitingServiceResumes : Prop :=
  (∀ (s : State) (c : Byte) (rest : List Byte),
    s.run = .running → s.wait = .getc → s.hostTurn.stop = false → s.hostTurn.inq = c :: rest →
    ∃ t, step s = .next t ∧ t.wait = .ready ∧ t.run = .running ∧ (t.reg 0).toNat = c.toNat ∧
      FlagOf (t.reg 0) t.cond ∧ SameRegsBut [0] s t ∧ t.pc = s.pc ∧ t.inq = rest ∧ SameMemory s t ∧
      SameOutput s.hostTurn t) ∧
  (∀ (s : State) (c : Byte) (rest : List Byte),
    s.run = .running → s.wait = .input → s.hostTurn.stop = false → s.hostTurn.inq = c :: rest → OutputGood 2 s →
    ∃ t, step s = .next t ∧ t.wait = .ready ∧ t.run = .running ∧ (t.reg 0).toNat = c.toNat ∧
      FlagOf (t.reg 0) t.cond ∧ SameRegsBut [0] s t ∧ t.pc = s.pc ∧ t.inq = rest ∧ SameMemory s t ∧
      t.out = s.out ++ [c] ∧ t.flushed = t.out.length) ∧
  (∀ (s : State) (c : Byte) (rest : List Byte) (k : Nat),
    s.run = .running → s.wait = .input → s.hostTurn.stop = false → s.hostTurn.inq = c :: rest →
    s.outFailAt = some k → k < 2 →
    ∃ t, step s = .next t ∧ t.run = .halted .outputFailure ∧ t.wait = .ready ∧ SameRegsBut [] s t ∧ t.cond = s.cond ∧
      t.pc = s.pc ∧ t.inq = rest ∧ SameMemory s t ∧ t.out = s.out ++ [c].take k ∧ t.flushed = s.hostTurn.flushed) ∧
  (∀ s : State, s.run = .running → s.wait ≠ .ready → s.hostTurn.stop = false → s.hostTurn.inq = [] →
    (s.host = [] → step s = .fault .waitingForInput) ∧ (s.host ≠ [] → step s = .next s.hostTurn))

/-- R106: OUT writes the low byte of R0 and flushes. Bits 11:8 (`high`) are free (R103, R72; D8), and the vector is D4's
(log 14). If one of the two calls fails, the run ends as HALTED(OutputFailure), with the byte out if it was the flush
(R113, R116, R33; D14, log 4). -/
def Obligations.OutWritesLowByte : Prop :=
  (∀ high : BitVec 4, decode (fmtT high 0x21#8) = .trapOut) ∧
  (∀ s : State, OutputGood 2 s →
    ∃ t, exec .trapOut s = .next t ∧ t.out = s.out ++ [(s.reg 0).setWidth 8] ∧ t.flushed = t.out.length ∧
      t.reg 7 = s.pc ∧ SameRegsBut [7] s t ∧ t.pc = s.pc ∧ t.cond = s.cond ∧ SameMemory s t ∧ SameInput s t ∧
      SameControl s t) ∧
  (∀ (s : State) (k : Nat), s.outFailAt = some k → k < 2 →
    ∃ t, exec .trapOut s = .next t ∧ t.run = .halted .outputFailure ∧ t.wait = .ready ∧
      t.out = s.out ++ [(s.reg 0).setWidth 8].take k ∧ t.flushed = s.flushed ∧ t.reg 7 = s.pc ∧
      SameRegsBut [7] s t ∧ t.pc = s.pc ∧ t.cond = s.cond ∧ SameMemory s t ∧ SameInput s t ∧ t.cfg = s.cfg)

/-- R107: PUTS on a string of `k` non-zero words and a zero word, none of them a polled KBSR. One byte a word, the low
one; the zero word is not output. -/
def Obligations.PutsWritesString : Prop :=
  ∀ (s : State) (k : Nat),
    (∀ j, j < k → s.stored (s.reg 0 + BitVec.ofNat 16 j) ≠ 0#16) → s.stored (s.reg 0 + BitVec.ofNat 16 k) = 0#16 →
    (s.cfg.trapReadIntercepts = true → ∀ j, j ≤ k → s.reg 0 + BitVec.ofNat 16 j ≠ s.cfg.kbsrAddr) →
    OutputGood (k + 1) s →
    ∃ t, exec .trapPuts s = .next t ∧
      t.out = s.out ++ (List.range k).map (fun j => (s.stored (s.reg 0 + BitVec.ofNat 16 j)).setWidth 8) ∧
      t.flushed = t.out.length ∧ t.reg 7 = s.pc ∧ SameRegsBut [7] s t ∧ t.pc = s.pc ∧ t.cond = s.cond ∧
      SameMemory s t ∧ SameInput s t ∧ SameControl s t

/-- R109: PUTSP on `k` words with two non-zero bytes and a word with a zero byte, none of them a polled KBSR. Two bytes
a word, the low one first; the first zero byte ends the string (C4). `loByte` and
`hiByte` are the word mod 256 and div 256 (R45). -/
def Obligations.PutspWritesPackedString : Prop :=
  ∀ (s : State) (k : Nat),
    (∀ j, j < k → loByte (s.stored (s.reg 0 + BitVec.ofNat 16 j)) ≠ 0#8 ∧
      hiByte (s.stored (s.reg 0 + BitVec.ofNat 16 j)) ≠ 0#8) →
    (loByte (s.stored (s.reg 0 + BitVec.ofNat 16 k)) = 0#8 ∨ hiByte (s.stored (s.reg 0 + BitVec.ofNat 16 k)) = 0#8) →
    (s.cfg.trapReadIntercepts = true → ∀ j, j ≤ k → s.reg 0 + BitVec.ofNat 16 j ≠ s.cfg.kbsrAddr) →
    OutputGood (2 * k + 2) s →
    ∃ t, exec .trapPutsp s = .next t ∧
      t.out = s.out ++ (List.range k).flatMap (fun j =>
          [loByte (s.stored (s.reg 0 + BitVec.ofNat 16 j)), hiByte (s.stored (s.reg 0 + BitVec.ofNat 16 j))]) ++
        (if loByte (s.stored (s.reg 0 + BitVec.ofNat 16 k)) = 0#8 then []
          else [loByte (s.stored (s.reg 0 + BitVec.ofNat 16 k))]) ∧
      t.flushed = t.out.length ∧ t.reg 7 = s.pc ∧ SameRegsBut [7] s t ∧ t.pc = s.pc ∧ t.cond = s.cond ∧
      SameMemory s t ∧ SameInput s t ∧ SameControl s t

/-- R107: the meaning of PUTS is exactly the rule's loop, polls and failures included: it has the loop's end as its next
state, and it answers `stringNeverEnds` exactly when the loop has no end (log 8). The loop reads through `MemRead` if
TRAP_READ_INTERCEPTS holds, and the stored word otherwise (R43, D17). -/
def Obligations.PutsRefinesItsLoop : Prop :=
  ∀ s : State,
    (∀ t, exec .trapPuts s = .next t ↔ ∃ r, PutsRuns (s.reg 0) s.link r ∧ r.state = t) ∧
    (exec .trapPuts s = .fault .stringNeverEnds ↔ ¬ ∃ r, PutsRuns (s.reg 0) s.link r)

/-- R109: the meaning of PUTSP is exactly the rule's loop, as for PUTS (log 8). -/
def Obligations.PutspRefinesItsLoop : Prop :=
  ∀ s : State,
    (∀ t, exec .trapPutsp s = .next t ↔ ∃ r, PutspRuns (s.reg 0) s.link r ∧ r.state = t) ∧
    (exec .trapPutsp s = .fault .stringNeverEnds ↔ ¬ ∃ r, PutspRuns (s.reg 0) s.link r)

/-- R107, R109, U8: without interception and without a failing output call, a memory with no zero word hangs PUTS, and
one with no zero byte hangs PUTSP; the model answers with the fault `stringNeverEnds` (log 8). -/
def Obligations.UnterminatedStringsHang : Prop :=
  ∀ s : State, s.cfg.trapReadIntercepts = false → s.outFailAt = none →
    ((∀ a : Word, s.stored a ≠ 0#16) → exec .trapPuts s = .fault .stringNeverEnds) ∧
    ((∀ a : Word, loByte (s.stored a) ≠ 0#8 ∧ hiByte (s.stored a) ≠ 0#8) →
      exec .trapPutsp s = .fault .stringNeverEnds)

/-- R108: IN with a character there: prompt, echo, R0 and the flags (the order is D16). R113, by which call fails, where
`k` calls succeed first (log 4). A prompt byte or the flush after the prompt (`k` up to the prompt's length): the run ends
before the read, with `inq` as before, whether or not a character is there. The echo or the flush after it: the character
is consumed and the prompt is out. In both cases R0 and `cond` are unchanged, and no service waits (log 6). -/
def Obligations.InPromptsAndEchoes : Prop :=
  (∀ (s : State) (c : Byte) (rest : List Byte), s.inq = c :: rest → OutputGood (s.cfg.inPrompt.length + 3) s →
    ∃ t, exec .trapIn s = .next t ∧ t.out = s.out ++ s.cfg.inPrompt ++ [c] ∧ t.flushed = t.out.length ∧
      (t.reg 0).toNat = c.toNat ∧ FlagOf (t.reg 0) t.cond ∧ t.reg 7 = s.pc ∧ SameRegsBut [0, 7] s t ∧
      t.pc = s.pc ∧ t.inq = rest ∧ t.stop = s.stop ∧ t.host = s.host ∧ SameMemory s t ∧ SameControl s t) ∧
  (∀ (s : State) (k : Nat), s.outFailAt = some k → k ≤ s.cfg.inPrompt.length →
    ∃ t, exec .trapIn s = .next t ∧ t.run = .halted .outputFailure ∧ t.wait = .ready ∧
      t.out = s.out ++ s.cfg.inPrompt.take k ∧ t.flushed = s.flushed ∧ t.reg 7 = s.pc ∧ SameRegsBut [7] s t ∧
      t.pc = s.pc ∧ t.cond = s.cond ∧ SameMemory s t ∧ SameInput s t ∧ t.cfg = s.cfg) ∧
  (∀ (s : State) (c : Byte) (rest : List Byte) (j : Nat), s.inq = c :: rest →
    s.outFailAt = some (s.cfg.inPrompt.length + 1 + j) → j < 2 →
    ∃ t, exec .trapIn s = .next t ∧ t.run = .halted .outputFailure ∧ t.wait = .ready ∧
      t.out = s.out ++ s.cfg.inPrompt ++ [c].take j ∧ t.flushed = s.out.length + s.cfg.inPrompt.length ∧
      t.inq = rest ∧ t.stop = s.stop ∧ t.host = s.host ∧ t.reg 7 = s.pc ∧ SameRegsBut [7] s t ∧ t.cond = s.cond ∧
      t.pc = s.pc ∧ SameMemory s t ∧ t.cfg = s.cfg)

/-- R110: HALT flushes, writes the notice, flushes and ends the run as HALTED(Halt). R113, R119: if one of its output
calls fails, the run ends as HALTED(OutputFailure) instead, with what was done before. There `k` counts the calls that
succeed first (log 4): call 0 is the first flush, calls 1 to the notice's length are its bytes, the next is the second
flush. -/
def Obligations.HaltEndsRun : Prop :=
  (∀ s : State, OutputGood (s.cfg.haltNotice.length + 2) s →
    ∃ t, exec .trapHalt s = .next t ∧ t.run = .halted .halt ∧ t.wait = .ready ∧ t.out = s.out ++ s.cfg.haltNotice ∧
      t.flushed = t.out.length ∧ t.reg 7 = s.pc ∧ SameRegsBut [7] s t ∧ t.pc = s.pc ∧ t.cond = s.cond ∧
      SameMemory s t ∧ SameInput s t ∧ t.cfg = s.cfg) ∧
  (∀ (s : State) (k : Nat), s.outFailAt = some k → k < s.cfg.haltNotice.length + 2 →
    ∃ t, exec .trapHalt s = .next t ∧ t.run = .halted .outputFailure ∧ t.wait = .ready ∧
      t.out = s.out ++ s.cfg.haltNotice.take (k - 1) ∧ t.flushed = (if k = 0 then s.flushed else s.out.length) ∧
      t.reg 7 = s.pc ∧ SameRegsBut [7] s t ∧ t.pc = s.pc ∧ t.cond = s.cond ∧ SameMemory s t ∧ SameInput s t ∧
      t.cfg = s.cfg)

/-- R111: a TRAP with an undefined vector ends the run as HALTED(InvalidOpcode), after R7 is written. No service waits
after it (log 6). -/
def Obligations.UndefinedVectorHalts : Prop :=
  ∀ (high : BitVec 4) (v : BitVec 8) (s : State), v.toNat < 0x20 ∨ 0x25 < v.toNat →
    decode (fmtT high v) = .trapUndefined high v ∧
    ∃ t, exec (.trapUndefined high v) s = .next t ∧
      t.run = .halted (.invalidOpcode (s.pc - 1) (fmtT high v)) ∧ t.wait = .ready ∧ t.reg 7 = s.pc ∧ SameRegsBut [7] s t ∧
      t.pc = s.pc ∧ t.cond = s.cond ∧ SameMemory s t ∧ SameInput s t ∧ SameOutput s t ∧ t.cfg = s.cfg

/-- R113, R116, R119: an instruction that ends the run as HALTED(OutputFailure) is a TRAP to one of the five output
services; its R7 write and the bytes already out stay, R0, `cond` and pc are as before, and no service waits
(log 6). -/
def Obligations.OutputFailureKeepsEarlierEffects : Prop :=
  ∀ (i : Instr) (s t : State), s.run = .running → exec i s = .next t → t.run = .halted .outputFailure →
    (∃ v, serviceRun i = some v ∧ v ≠ .getc) ∧ s.outFailAt ≠ none ∧ t.wait = .ready ∧ t.reg 7 = s.pc ∧ SameRegsBut [7] s t ∧
      t.cond = s.cond ∧ t.pc = s.pc ∧ s.out <+: t.out

/-! ## Memory and the keyboard -/

/-- R39, R40: a read of KBSR_ADDR. With a character there it consumes it, returns 0x8000 and copies it to KBDR;
otherwise it returns 0x0000 and leaves KBDR. Every other word and everything else is as before. That the status word is
written whole and the character consumed and 8 bits wide are the spec's decisions D6, D7 and D9. -/
def Obligations.StatusReadPolls : Prop :=
  ∀ s : State, s.cfg.wf = true →
    ∃ v t, s.memRead s.cfg.kbsrAddr = (v, t) ∧ t.stored s.cfg.kbsrAddr = v ∧
      (∀ c rest, s.inq = c :: rest →
        v = 0x8000#16 ∧ t.inq = rest ∧ (t.stored s.cfg.kbdrAddr).toNat = c.toNat) ∧
      (s.inq = [] → v = 0x0000#16 ∧ t.inq = [] ∧ t.stored s.cfg.kbdrAddr = s.stored s.cfg.kbdrAddr) ∧
      (∀ a, a ≠ s.cfg.kbsrAddr → a ≠ s.cfg.kbdrAddr → t.stored a = s.stored a) ∧
      SameRegsBut [] s t ∧ t.pc = s.pc ∧ t.cond = s.cond ∧ t.stop = s.stop ∧ t.host = s.host ∧
      SameOutput s t ∧ SameControl s t

/-- R41: only a read of the status address is intercepted; a read of KBDR, and of every other address, returns the
stored word and changes nothing. -/
def Obligations.OtherReadsHaveNoEffect : Prop :=
  ∀ s : State, (∀ a, a ≠ s.cfg.kbsrAddr → s.memRead a = (s.stored a, s)) ∧
    (s.cfg.wf = true → s.memRead s.cfg.kbdrAddr = (s.stored s.cfg.kbdrAddr, s))

/-- R42: a store sets its word, at every address, and has no other effect; a store to KBSR is lost at the next KBSR
read, which does then what it would have done without the store. -/
def Obligations.StoreIsUnconditional : Prop :=
  ∀ (s : State) (a v : Word),
    (s.memWrite a v).stored a = v ∧ SameMemoryBut a s (s.memWrite a v) ∧ SameRegsBut [] s (s.memWrite a v) ∧
    (s.memWrite a v).pc = s.pc ∧ (s.memWrite a v).cond = s.cond ∧ SameInput s (s.memWrite a v) ∧
    SameOutput s (s.memWrite a v) ∧ SameControl s (s.memWrite a v) ∧
    ((s.memWrite s.cfg.kbsrAddr v).memRead s.cfg.kbsrAddr).1 = (s.memRead s.cfg.kbsrAddr).1 ∧
    SameMemory (s.memRead s.cfg.kbsrAddr).2 ((s.memWrite s.cfg.kbsrAddr v).memRead s.cfg.kbsrAddr).2

/-- R56: a stored word is what the next fetch of that address returns, with nothing in between. -/
def Obligations.StoreSeenByNextFetch : Prop :=
  ∀ (s : State) (a v : Word), a ≠ s.cfg.kbsrAddr → (((s.memWrite a v).setPc a).fetch).1 = v

/-- R31, R32, R34, R129: the host's turn. It appends to `inq`, may set `stop`, may make bytes of `out` visible, and leaves
everything else; with no coming turn nothing happens (log 3, log 9). R58: a step consumes characters from the front of
`inq` in delivery order, and writes bytes at the end of `out`; R31 and R9: it takes back no stop request and changes no
parameter. -/
def Obligations.StreamsKeepOrder : Prop :=
  (∀ s : State, s.host = [] → s.hostTurn = s) ∧
  (∀ (s : State) (m : HostMove) (rest : List HostMove), s.host = m :: rest →
    s.hostTurn =
      { s with
        inq := s.inq ++ m.arrives, stop := s.stop || m.setsStop, host := rest,
        flushed := max s.flushed (min (s.flushed + m.shows) s.out.length) }) ∧
  ∀ s t : State, step s = .next t →
    t.inq <:+ s.hostTurn.inq ∧ s.out <+: t.out ∧ t.stop = s.hostTurn.stop ∧ t.host = s.hostTurn.host ∧ t.cfg = s.cfg

/-- The canonical form (log 2). Two memories in the form that read alike are equal. So a memory does not remember how it
was written: storing a word that is already there changes nothing, a second store to one address hides the first, and
stores to two addresses commute. -/
def Obligations.MemoryFormIsCanonical : Prop :=
  (∀ m n : Memory, m.wf = true → n.wf = true → (∀ a, a < 65536 → m.read a = n.read a) → m = n) ∧
  ∀ (s : State) (a b v w : Word), s.mem.wf = true →
    s.store a (s.stored a) = s ∧ (s.store a v).store a w = s.store a w ∧
    (a ≠ b → (s.store a v).store b w = (s.store b w).store a v)

/-- R50: `load_image` in plain terms: the words from the origin on, cut off at 0xFFFF with no wrap, every other word as
before, and no other state touched. -/
def Obligations.LoadImageWritesWords : Prop :=
  ∀ (i : Image) (s : State) (a : Word),
    (loadImage i s).stored a =
      (if i.origin.toNat ≤ a.toNat ∧ a.toNat - i.origin.toNat < i.words.length
        then i.words.getD (a.toNat - i.origin.toNat) 0#16 else s.stored a) ∧
    SameRegsBut [] s (loadImage i s) ∧ (loadImage i s).pc = s.pc ∧ (loadImage i s).cond = s.cond ∧
    SameInput s (loadImage i s) ∧ SameOutput s (loadImage i s) ∧ SameControl s (loadImage i s)

/-- R134, R52, R117, R133: start-up. No image exits with code 2; a failing image exits with code 1; otherwise the loop
runs from reset with the images loaded in order. A normal HALT exits with code 0. -/
def Obligations.StartUpLoadsImagesInOrder : Prop :=
  (∀ (cfg : Config) (q : List Byte), startUp cfg q [] = .exits 2) ∧
  (∀ (cfg : Config) (q : List Byte) (files : List (Option Image)), none ∈ files → startUp cfg q files = .exits 1) ∧
  (∀ (cfg : Config) (q : List Byte) (i : Image) (rest : List Image),
    startUp cfg q ((i :: rest).map some) =
      .runs ((i :: rest).foldl (fun s j => loadImage j s) (State.resetWith cfg q))) ∧
  HaltReason.exitCode .halt = 0

/-! ## Rules about all instructions -/

/-- R20: "These instructions write general registers, and no others do", and each only the registers named there. -/
def Obligations.OnlyNamedRegistersWritten : Prop :=
  ∀ (i : Instr) (s t : State), exec i s = .next t → SameRegsBut (regWrites i) s t

/-- R24, R98: after the fetch increment only BR, JMP, JSR and JSRR write pc. -/
def Obligations.OnlyTransfersWritePc : Prop :=
  ∀ (i : Instr) (s t : State), exec i s = .next t → transfersControl i = false → t.pc = s.pc

/-- R27, R82: an instruction that is not flag-affecting leaves `cond`; a flag-affecting one that completes sets it from
its destination's new value. A TRAP that waits or ends the run has not completed. -/
def Obligations.FlagsFollowDestination : Prop :=
  ∀ (i : Instr) (s t : State), s.run = .running → s.wait = .ready → exec i s = .next t →
    (flagDest i = none → t.cond = s.cond) ∧
    (∀ dr, flagDest i = some dr → t.run = .running → t.wait = .ready → FlagOf (t.reg dr) t.cond)

/-- R27: `cond` is read only by BR. Changing it changes nothing that any other instruction does, but for `cond`
itself. -/
def Obligations.CondReadOnlyByBranch : Prop :=
  ∀ (i : Instr) (s : State) (c : Cond), (∀ n z p off9, i ≠ .br n z p off9) →
    (∀ t, exec i s = .next t →
      ∃ t', exec i { s with cond := c } = .next t' ∧ { t' with cond := t.cond } = t) ∧
    (∀ f, exec i s = .fault f → exec i { s with cond := c } = .fault f)

/-- R95 to R97, R39, R42: no instruction but ST, STI and STR changes a word of memory other than KBSR and KBDR. -/
def Obligations.OnlyStoresChangeMemory : Prop :=
  ∀ (i : Instr) (s t : State), exec i s = .next t → storesToMemory i = false →
    ∀ a, a ≠ s.cfg.kbsrAddr → a ≠ s.cfg.kbdrAddr → t.stored a = s.stored a

/-- R115: an instruction raises InvalidOpcode exactly if it is opcode 8, opcode 13 or a TRAP with an undefined vector,
and then it records the fetch address and its own word (D11). -/
def Obligations.InvalidOpcodeExactly : Prop :=
  ∀ (i : Instr) (s : State), s.run = .running →
    (isInvalid i = true → ∃ t, exec i s = .next t ∧ t.run = .halted (.invalidOpcode (s.pc - 1) (encode i))) ∧
    (∀ t addr word, exec i s = .next t → t.run = .halted (.invalidOpcode addr word) →
      isInvalid i = true ∧ addr = s.pc - 1 ∧ word = encode i)

/-- R118: no instruction is refused, and the only one without a next state is PUTS or PUTSP on an endless string, which
needs string reads that are not intercepted (U8; log 8). -/
def Obligations.OnlyEndlessStringsStop : Prop :=
  ∀ (i : Instr) (s : State),
    (∃ t, exec i s = .next t) ∨
    (exec i s = .fault .stringNeverEnds ∧ s.cfg.trapReadIntercepts = false ∧
      (serviceRun i = some .puts ∨ serviceRun i = some .putsp))

/-! ## The invariant -/

/-- The invariant holds at reset, for any parameters and typed-ahead characters, and after any image load. -/
def Obligations.InvariantAtReset : Prop :=
  (∀ (cfg : Config) (q : List Byte), (State.resetWith cfg q).Inv) ∧ State.reset.Inv ∧
  (∀ (i : Image) (s : State), s.Inv → (loadImage i s).Inv)

/-- Every step keeps the invariant: memory stays in its canonical form, no more bytes are visible than written, and no
service waits in a HALTED state (R30, R33, R112). -/
def Obligations.StepKeepsInvariant : Prop :=
  ∀ s t : State, s.Inv → step s = .next t → t.Inv
end

