-- ==== Sys2Proof/Laws/Decode.lean ====
section
/-! SUPPORT. The fields of a word in each format of R61. -/

namespace Sys2Proof

@[simp] theorem Reg.ofBits_bits (r : Reg) : Reg.ofBits (Reg.bits r) = r := rfl
@[simp] theorem Reg.bits_ofBits (b : BitVec 3) : Reg.bits (Reg.ofBits b) = b := rfl

/-- A register field is the register whose three bits stand there. -/
theorem regAt_of_bits {w : Word} {lo : Nat} {r : Reg} (h : w.extractLsb' lo 3 = Reg.bits r) : regAt w lo = r := by
  simp [regAt, h]

/-! ## fmtRR -/

@[simp] theorem opcodeOf_fmtRR (op : BitVec 4) (dr sr1 : Reg) (x : BitVec 2) (sr2 : Reg) : opcodeOf (fmtRR op dr sr1 x sr2) = op := by
  repeat first
    | refine (BitVec.extractLsb'_append_eq_of_le (by decide)).trans ?_
    | refine (BitVec.extractLsb'_append_eq_of_add_le (by decide)).trans ?_
    | exact BitVec.extractLsb'_eq_self

@[simp] theorem regAt_fmtRR_9 (op : BitVec 4) (dr sr1 : Reg) (x : BitVec 2) (sr2 : Reg) : regAt (fmtRR op dr sr1 x sr2) 9 = dr := by
  apply regAt_of_bits
  repeat first
    | refine (BitVec.extractLsb'_append_eq_of_le (by decide)).trans ?_
    | refine (BitVec.extractLsb'_append_eq_of_add_le (by decide)).trans ?_
    | exact BitVec.extractLsb'_eq_self

@[simp] theorem regAt_fmtRR_6 (op : BitVec 4) (dr sr1 : Reg) (x : BitVec 2) (sr2 : Reg) : regAt (fmtRR op dr sr1 x sr2) 6 = sr1 := by
  apply regAt_of_bits
  repeat first
    | refine (BitVec.extractLsb'_append_eq_of_le (by decide)).trans ?_
    | refine (BitVec.extractLsb'_append_eq_of_add_le (by decide)).trans ?_
    | exact BitVec.extractLsb'_eq_self

@[simp] theorem regAt_fmtRR_0 (op : BitVec 4) (dr sr1 : Reg) (x : BitVec 2) (sr2 : Reg) : regAt (fmtRR op dr sr1 x sr2) 0 = sr2 := by
  apply regAt_of_bits
  repeat first
    | refine (BitVec.extractLsb'_append_eq_of_le (by decide)).trans ?_
    | refine (BitVec.extractLsb'_append_eq_of_add_le (by decide)).trans ?_
    | exact BitVec.extractLsb'_eq_self

@[simp] theorem bitAt_fmtRR_5 (op : BitVec 4) (dr sr1 : Reg) (x : BitVec 2) (sr2 : Reg) : bitAt (fmtRR op dr sr1 x sr2) 5 = false := by
  show (op ++ Reg.bits dr ++ Reg.bits sr1 ++ 0#1 ++ x ++ Reg.bits sr2).getLsbD 5 = _
  simp only [BitVec.getLsbD_append]
  simp

/-! ## fmtRI -/

@[simp] theorem opcodeOf_fmtRI (op : BitVec 4) (dr sr1 : Reg) (imm5 : BitVec 5) : opcodeOf (fmtRI op dr sr1 imm5) = op := by
  repeat first
    | refine (BitVec.extractLsb'_append_eq_of_le (by decide)).trans ?_
    | refine (BitVec.extractLsb'_append_eq_of_add_le (by decide)).trans ?_
    | exact BitVec.extractLsb'_eq_self

@[simp] theorem regAt_fmtRI_9 (op : BitVec 4) (dr sr1 : Reg) (imm5 : BitVec 5) : regAt (fmtRI op dr sr1 imm5) 9 = dr := by
  apply regAt_of_bits
  repeat first
    | refine (BitVec.extractLsb'_append_eq_of_le (by decide)).trans ?_
    | refine (BitVec.extractLsb'_append_eq_of_add_le (by decide)).trans ?_
    | exact BitVec.extractLsb'_eq_self

@[simp] theorem regAt_fmtRI_6 (op : BitVec 4) (dr sr1 : Reg) (imm5 : BitVec 5) : regAt (fmtRI op dr sr1 imm5) 6 = sr1 := by
  apply regAt_of_bits
  repeat first
    | refine (BitVec.extractLsb'_append_eq_of_le (by decide)).trans ?_
    | refine (BitVec.extractLsb'_append_eq_of_add_le (by decide)).trans ?_
    | exact BitVec.extractLsb'_eq_self

@[simp] theorem lowField_fmtRI (op : BitVec 4) (dr sr1 : Reg) (imm5 : BitVec 5) : lowField (fmtRI op dr sr1 imm5) 5 = imm5 := by
  repeat first
    | refine (BitVec.extractLsb'_append_eq_of_le (by decide)).trans ?_
    | refine (BitVec.extractLsb'_append_eq_of_add_le (by decide)).trans ?_
    | exact BitVec.extractLsb'_eq_self

@[simp] theorem bitAt_fmtRI_5 (op : BitVec 4) (dr sr1 : Reg) (imm5 : BitVec 5) : bitAt (fmtRI op dr sr1 imm5) 5 = true := by
  show (op ++ Reg.bits dr ++ Reg.bits sr1 ++ 1#1 ++ imm5).getLsbD 5 = _
  simp only [BitVec.getLsbD_append]
  simp

/-! ## fmtR2 -/

@[simp] theorem opcodeOf_fmtR2 (dr sr : Reg) (x : BitVec 6) : opcodeOf (fmtR2 dr sr x) = 9#4 := by
  repeat first
    | refine (BitVec.extractLsb'_append_eq_of_le (by decide)).trans ?_
    | refine (BitVec.extractLsb'_append_eq_of_add_le (by decide)).trans ?_
    | exact BitVec.extractLsb'_eq_self

@[simp] theorem regAt_fmtR2_9 (dr sr : Reg) (x : BitVec 6) : regAt (fmtR2 dr sr x) 9 = dr := by
  apply regAt_of_bits
  repeat first
    | refine (BitVec.extractLsb'_append_eq_of_le (by decide)).trans ?_
    | refine (BitVec.extractLsb'_append_eq_of_add_le (by decide)).trans ?_
    | exact BitVec.extractLsb'_eq_self

@[simp] theorem regAt_fmtR2_6 (dr sr : Reg) (x : BitVec 6) : regAt (fmtR2 dr sr x) 6 = sr := by
  apply regAt_of_bits
  repeat first
    | refine (BitVec.extractLsb'_append_eq_of_le (by decide)).trans ?_
    | refine (BitVec.extractLsb'_append_eq_of_add_le (by decide)).trans ?_
    | exact BitVec.extractLsb'_eq_self

/-! ## fmtPC9 -/

@[simp] theorem opcodeOf_fmtPC9 (op : BitVec 4) (r : Reg) (off9 : BitVec 9) : opcodeOf (fmtPC9 op r off9) = op := by
  repeat first
    | refine (BitVec.extractLsb'_append_eq_of_le (by decide)).trans ?_
    | refine (BitVec.extractLsb'_append_eq_of_add_le (by decide)).trans ?_
    | exact BitVec.extractLsb'_eq_self

@[simp] theorem regAt_fmtPC9_9 (op : BitVec 4) (r : Reg) (off9 : BitVec 9) : regAt (fmtPC9 op r off9) 9 = r := by
  apply regAt_of_bits
  repeat first
    | refine (BitVec.extractLsb'_append_eq_of_le (by decide)).trans ?_
    | refine (BitVec.extractLsb'_append_eq_of_add_le (by decide)).trans ?_
    | exact BitVec.extractLsb'_eq_self

@[simp] theorem lowField_fmtPC9 (op : BitVec 4) (r : Reg) (off9 : BitVec 9) : lowField (fmtPC9 op r off9) 9 = off9 := by
  repeat first
    | refine (BitVec.extractLsb'_append_eq_of_le (by decide)).trans ?_
    | refine (BitVec.extractLsb'_append_eq_of_add_le (by decide)).trans ?_
    | exact BitVec.extractLsb'_eq_self

/-! ## fmtBR -/

@[simp] theorem opcodeOf_fmtBR (n z p : Bool) (off9 : BitVec 9) : opcodeOf (fmtBR n z p off9) = 0#4 := by
  repeat first
    | refine (BitVec.extractLsb'_append_eq_of_le (by decide)).trans ?_
    | refine (BitVec.extractLsb'_append_eq_of_add_le (by decide)).trans ?_
    | exact BitVec.extractLsb'_eq_self

@[simp] theorem bitAt_fmtBR_11 (n z p : Bool) (off9 : BitVec 9) : bitAt (fmtBR n z p off9) 11 = n := by
  show (0b0000#4 ++ BitVec.ofBool n ++ BitVec.ofBool z ++ BitVec.ofBool p ++ off9).getLsbD 11 = _
  simp only [BitVec.getLsbD_append]
  simp

@[simp] theorem bitAt_fmtBR_10 (n z p : Bool) (off9 : BitVec 9) : bitAt (fmtBR n z p off9) 10 = z := by
  show (0b0000#4 ++ BitVec.ofBool n ++ BitVec.ofBool z ++ BitVec.ofBool p ++ off9).getLsbD 10 = _
  simp only [BitVec.getLsbD_append]
  simp

@[simp] theorem bitAt_fmtBR_9 (n z p : Bool) (off9 : BitVec 9) : bitAt (fmtBR n z p off9) 9 = p := by
  show (0b0000#4 ++ BitVec.ofBool n ++ BitVec.ofBool z ++ BitVec.ofBool p ++ off9).getLsbD 9 = _
  simp only [BitVec.getLsbD_append]
  simp

@[simp] theorem lowField_fmtBR (n z p : Bool) (off9 : BitVec 9) : lowField (fmtBR n z p off9) 9 = off9 := by
  repeat first
    | refine (BitVec.extractLsb'_append_eq_of_le (by decide)).trans ?_
    | refine (BitVec.extractLsb'_append_eq_of_add_le (by decide)).trans ?_
    | exact BitVec.extractLsb'_eq_self

/-! ## fmtB6 -/

@[simp] theorem opcodeOf_fmtB6 (op : BitVec 4) (r baseR : Reg) (off6 : BitVec 6) : opcodeOf (fmtB6 op r baseR off6) = op := by
  repeat first
    | refine (BitVec.extractLsb'_append_eq_of_le (by decide)).trans ?_
    | refine (BitVec.extractLsb'_append_eq_of_add_le (by decide)).trans ?_
    | exact BitVec.extractLsb'_eq_self

@[simp] theorem regAt_fmtB6_9 (op : BitVec 4) (r baseR : Reg) (off6 : BitVec 6) : regAt (fmtB6 op r baseR off6) 9 = r := by
  apply regAt_of_bits
  repeat first
    | refine (BitVec.extractLsb'_append_eq_of_le (by decide)).trans ?_
    | refine (BitVec.extractLsb'_append_eq_of_add_le (by decide)).trans ?_
    | exact BitVec.extractLsb'_eq_self

@[simp] theorem regAt_fmtB6_6 (op : BitVec 4) (r baseR : Reg) (off6 : BitVec 6) : regAt (fmtB6 op r baseR off6) 6 = baseR := by
  apply regAt_of_bits
  repeat first
    | refine (BitVec.extractLsb'_append_eq_of_le (by decide)).trans ?_
    | refine (BitVec.extractLsb'_append_eq_of_add_le (by decide)).trans ?_
    | exact BitVec.extractLsb'_eq_self

@[simp] theorem lowField_fmtB6 (op : BitVec 4) (r baseR : Reg) (off6 : BitVec 6) : lowField (fmtB6 op r baseR off6) 6 = off6 := by
  repeat first
    | refine (BitVec.extractLsb'_append_eq_of_le (by decide)).trans ?_
    | refine (BitVec.extractLsb'_append_eq_of_add_le (by decide)).trans ?_
    | exact BitVec.extractLsb'_eq_self

/-! ## fmtB -/

@[simp] theorem opcodeOf_fmtB (x : BitVec 3) (baseR : Reg) (y : BitVec 6) : opcodeOf (fmtB x baseR y) = 12#4 := by
  repeat first
    | refine (BitVec.extractLsb'_append_eq_of_le (by decide)).trans ?_
    | refine (BitVec.extractLsb'_append_eq_of_add_le (by decide)).trans ?_
    | exact BitVec.extractLsb'_eq_self

@[simp] theorem regAt_fmtB_6 (x : BitVec 3) (baseR : Reg) (y : BitVec 6) : regAt (fmtB x baseR y) 6 = baseR := by
  apply regAt_of_bits
  repeat first
    | refine (BitVec.extractLsb'_append_eq_of_le (by decide)).trans ?_
    | refine (BitVec.extractLsb'_append_eq_of_add_le (by decide)).trans ?_
    | exact BitVec.extractLsb'_eq_self

/-! ## fmtPC11 -/

@[simp] theorem opcodeOf_fmtPC11 (off11 : BitVec 11) : opcodeOf (fmtPC11 off11) = 4#4 := by
  repeat first
    | refine (BitVec.extractLsb'_append_eq_of_le (by decide)).trans ?_
    | refine (BitVec.extractLsb'_append_eq_of_add_le (by decide)).trans ?_
    | exact BitVec.extractLsb'_eq_self

@[simp] theorem bitAt_fmtPC11_11 (off11 : BitVec 11) : bitAt (fmtPC11 off11) 11 = true := by
  show (0b0100#4 ++ 1#1 ++ off11).getLsbD 11 = _
  simp only [BitVec.getLsbD_append]
  simp

@[simp] theorem lowField_fmtPC11 (off11 : BitVec 11) : lowField (fmtPC11 off11) 11 = off11 := by
  repeat first
    | refine (BitVec.extractLsb'_append_eq_of_le (by decide)).trans ?_
    | refine (BitVec.extractLsb'_append_eq_of_add_le (by decide)).trans ?_
    | exact BitVec.extractLsb'_eq_self

/-! ## fmtBJ -/

@[simp] theorem opcodeOf_fmtBJ (x : BitVec 2) (baseR : Reg) (y : BitVec 6) : opcodeOf (fmtBJ x baseR y) = 4#4 := by
  repeat first
    | refine (BitVec.extractLsb'_append_eq_of_le (by decide)).trans ?_
    | refine (BitVec.extractLsb'_append_eq_of_add_le (by decide)).trans ?_
    | exact BitVec.extractLsb'_eq_self

@[simp] theorem bitAt_fmtBJ_11 (x : BitVec 2) (baseR : Reg) (y : BitVec 6) : bitAt (fmtBJ x baseR y) 11 = false := by
  show (0b0100#4 ++ 0#1 ++ x ++ Reg.bits baseR ++ y).getLsbD 11 = _
  simp only [BitVec.getLsbD_append]
  simp

@[simp] theorem regAt_fmtBJ_6 (x : BitVec 2) (baseR : Reg) (y : BitVec 6) : regAt (fmtBJ x baseR y) 6 = baseR := by
  apply regAt_of_bits
  repeat first
    | refine (BitVec.extractLsb'_append_eq_of_le (by decide)).trans ?_
    | refine (BitVec.extractLsb'_append_eq_of_add_le (by decide)).trans ?_
    | exact BitVec.extractLsb'_eq_self

/-! ## fmtT -/

@[simp] theorem opcodeOf_fmtT (x : BitVec 4) (v : BitVec 8) : opcodeOf (fmtT x v) = 15#4 := by
  repeat first
    | refine (BitVec.extractLsb'_append_eq_of_le (by decide)).trans ?_
    | refine (BitVec.extractLsb'_append_eq_of_add_le (by decide)).trans ?_
    | exact BitVec.extractLsb'_eq_self

@[simp] theorem lowField_fmtT (x : BitVec 4) (v : BitVec 8) : lowField (fmtT x v) 8 = v := by
  repeat first
    | refine (BitVec.extractLsb'_append_eq_of_le (by decide)).trans ?_
    | refine (BitVec.extractLsb'_append_eq_of_add_le (by decide)).trans ?_
    | exact BitVec.extractLsb'_eq_self

@[simp] theorem extract_fmtT_8 (x : BitVec 4) (v : BitVec 8) : (fmtT x v).extractLsb' 8 4 = x := by
  repeat first
    | refine (BitVec.extractLsb'_append_eq_of_le (by decide)).trans ?_
    | refine (BitVec.extractLsb'_append_eq_of_add_le (by decide)).trans ?_
    | exact BitVec.extractLsb'_eq_self

/-! ## fmtILL -/

@[simp] theorem opcodeOf_fmtILL (op : BitVec 4) (x : BitVec 12) : opcodeOf (fmtILL op x) = op := by
  repeat first
    | refine (BitVec.extractLsb'_append_eq_of_le (by decide)).trans ?_
    | refine (BitVec.extractLsb'_append_eq_of_add_le (by decide)).trans ?_
    | exact BitVec.extractLsb'_eq_self

@[simp] theorem lowField_fmtILL (op : BitVec 4) (x : BitVec 12) : lowField (fmtILL op x) 12 = x := by
  repeat first
    | refine (BitVec.extractLsb'_append_eq_of_le (by decide)).trans ?_
    | refine (BitVec.extractLsb'_append_eq_of_add_le (by decide)).trans ?_
    | exact BitVec.extractLsb'_eq_self

/-! ## The trap vectors -/

/-- Every service vector is in 0x20..0x25, and every other vector is no service (R104, R111). -/
theorem serviceOf_eq_none (v : BitVec 8) : serviceOf v = none ↔ v.toNat < 0x20 ∨ 0x25 < v.toNat := by
  revert v; decide

end Sys2Proof
end

