-- ==== Sys2Proof/Laws/Memory.lean ====
section
/-! SUPPORT. Reads after writes, and that every memory operation keeps the canonical form. -/

namespace Sys2Proof.Machine

/-! ## Reads after writes -/

@[simp] theorem Memory.read_nil (a : Nat) : Memory.read [] a = 0#16 := rfl

theorem Memory.read_erase (m : Memory) (a b : Nat) : (m.erase a).read b = if b = a then 0#16 else m.read b := by
  induction m with
  | nil => simp [Memory.erase]
  | cons c rest ih =>
    obtain ⟨x, w⟩ := c
    simp only [Memory.erase] at ih ⊢
    by_cases hx : x = a
    · subst hx
      simp only [List.filter_cons, bne_self_eq_false, Bool.false_eq_true, if_false, ih, Memory.read]
      split <;> simp_all [eq_comm]
    · simp only [List.filter_cons, bne_iff_ne, ne_eq, hx, not_false_eq_true, if_true, Memory.read, ih]
      by_cases hb : x = b
      · simp [hb, show b ≠ a from hb ▸ hx]
      · simp [hb]

theorem Memory.read_insert (m : Memory) (a b : Nat) (v : Word) (h : ∀ c ∈ m, c.1 ≠ a) :
    (m.insert a v).read b = if b = a then v else m.read b := by
  induction m with
  | nil => simp [Memory.insert, Memory.read, eq_comm]
  | cons c rest ih =>
    obtain ⟨x, w⟩ := c
    have hx : x ≠ a := h (x, w) (by simp)
    have ih := ih fun c hc => h c (by simp [hc])
    simp only [Memory.insert]
    split
    · simp only [Memory.read, eq_comm (a := a)]
    · simp only [Memory.read, ih]
      by_cases hb : x = b
      · simp [hb, show b ≠ a from hb ▸ hx]
      · simp [hb]

theorem Memory.erase_no_entry (m : Memory) (a : Nat) : ∀ c ∈ m.erase a, c.1 ≠ a := by
  intro c hc
  simpa using (List.mem_filter.mp hc).2

/-- A read after a write gives the value written there and the old word elsewhere (R53). -/
@[simp] theorem Memory.read_write (m : Memory) (a b : Nat) (v : Word) :
    (m.write a v).read b = if b = a then v else m.read b := by
  unfold Memory.write
  split
  · rename_i hv
    rw [Memory.read_erase, hv]
  · rw [Memory.read_insert _ _ _ _ (Memory.erase_no_entry m a), Memory.read_erase]
    split <;> rfl

/-! ## The canonical form -/

theorem Memory.wfFrom_cons (lo a : Nat) (w : Word) (rest : Memory) :
    Memory.wfFrom lo ((a, w) :: rest) = true ↔
      lo ≤ a ∧ a < 65536 ∧ w ≠ 0#16 ∧ Memory.wfFrom (a + 1) rest = true := by
  simp [Memory.wfFrom, and_assoc]

theorem Memory.wfFrom_mono {lo lo' : Nat} (m : Memory) (h : lo' ≤ lo) (hm : m.wfFrom lo = true) :
    m.wfFrom lo' = true := by
  cases m with
  | nil => rfl
  | cons c rest =>
    obtain ⟨a, w⟩ := c
    rw [Memory.wfFrom_cons] at hm ⊢
    exact ⟨h.trans hm.1, hm.2⟩

theorem Memory.wfFrom_erase (lo a : Nat) (m : Memory) (hm : m.wfFrom lo = true) : (m.erase a).wfFrom lo = true := by
  induction m generalizing lo with
  | nil => rfl
  | cons c rest ih =>
    obtain ⟨x, w⟩ := c
    rw [Memory.wfFrom_cons] at hm
    have hr := ih (x + 1) hm.2.2.2
    by_cases hx : x = a
    · have : Memory.erase ((x, w) :: rest) a = Memory.erase rest a := by simp [Memory.erase, hx]
      rw [this]
      exact Memory.wfFrom_mono _ (by omega) hr
    · have : Memory.erase ((x, w) :: rest) a = (x, w) :: Memory.erase rest a := by simp [Memory.erase, hx]
      rw [this, Memory.wfFrom_cons]
      exact ⟨hm.1, hm.2.1, hm.2.2.1, hr⟩

theorem Memory.wfFrom_insert (lo a : Nat) (v : Word) (m : Memory) (hm : m.wfFrom lo = true) (hlo : lo ≤ a)
    (ha : a < 65536) (hv : v ≠ 0#16) (h : ∀ c ∈ m, c.1 ≠ a) : (m.insert a v).wfFrom lo = true := by
  induction m generalizing lo with
  | nil => exact (Memory.wfFrom_cons ..).mpr ⟨hlo, ha, hv, rfl⟩
  | cons c rest ih =>
    obtain ⟨x, w⟩ := c
    have hx : x ≠ a := h (x, w) (by simp)
    rw [Memory.wfFrom_cons] at hm
    simp only [Memory.insert]
    split
    · rename_i hax
      exact (Memory.wfFrom_cons ..).mpr ⟨hlo, ha, hv, (Memory.wfFrom_cons ..).mpr ⟨hax, hm.2.1, hm.2.2.1, hm.2.2.2⟩⟩
    · exact (Memory.wfFrom_cons ..).mpr
        ⟨hm.1, hm.2.1, hm.2.2.1, ih (x + 1) hm.2.2.2 (by omega) fun c hc => h c (by simp [hc])⟩

/-- A write keeps the canonical form. -/
theorem Memory.wf_write (m : Memory) (a : Nat) (v : Word) (hm : m.wf = true) (ha : a < 65536) :
    (m.write a v).wf = true := by
  unfold Memory.write Memory.wf
  split
  · exact Memory.wfFrom_erase _ _ _ hm
  · exact Memory.wfFrom_insert _ _ _ _ (Memory.wfFrom_erase _ _ _ hm) (Nat.zero_le _) ha ‹_›
      (Memory.erase_no_entry m a)

/-- Loading words keeps the canonical form. -/
theorem Memory.wf_writeWords (ws : List Word) (a : Nat) (m : Memory) (hm : m.wf = true) (h : a + ws.length ≤ 65536) :
    (Memory.writeWords ws a m).wf = true := by
  induction ws generalizing a m with
  | nil => exact hm
  | cons w rest ih =>
    simp only [List.length_cons] at h
    exact ih (a + 1) _ (Memory.wf_write m a w hm (by omega)) (by omega)

/-- Memory at reset has the form. -/
theorem State.resetWith_mem_wf (cfg : Config) (q : List Byte) : (State.resetWith cfg q).mem.wf = true := rfl

/-- In the form every address below the first is unlisted. -/
theorem Memory.read_below (lo a : Nat) (m : Memory) (hm : m.wfFrom lo = true) (ha : a < lo) : m.read a = 0#16 := by
  induction m generalizing lo with
  | nil => rfl
  | cons c rest ih =>
    obtain ⟨x, w⟩ := c
    rw [Memory.wfFrom_cons] at hm
    have : x ≠ a := by omega
    simp only [Memory.read, this, if_false]
    exact ih (x + 1) hm.2.2.2 (by omega)

/-- What `writeWords` leaves: the words at their addresses, the old words elsewhere. -/
theorem Memory.read_writeWords (ws : List Word) (a b : Nat) (m : Memory) :
    (Memory.writeWords ws a m).read b = if a ≤ b ∧ b - a < ws.length then ws.getD (b - a) 0#16 else m.read b := by
  induction ws generalizing a m with
  | nil => simp [Memory.writeWords]
  | cons w rest ih =>
    rw [Memory.writeWords, ih, Memory.read_write]
    by_cases hb : b = a
    · subst hb; simp
    · by_cases h : a + 1 ≤ b
      · obtain ⟨k, rfl⟩ := Nat.exists_eq_add_of_le h
        have e1 : a + 1 + k - (a + 1) = k := by omega
        have e2 : a + 1 + k - a = k + 1 := by omega
        simp [e1, e2, show a ≤ a + 1 + k by omega, show a + 1 + k ≠ a by omega]
      · have h1 : ¬ (a + 1 ≤ b ∧ b - (a + 1) < rest.length) := by omega
        have h2 : ¬ (a ≤ b ∧ b - a < (w :: rest).length) := by omega
        rw [if_neg h1, if_neg h2, if_neg hb]

end Sys2Proof.Machine
end

