-- ==== Sys2Proof/Laws/State.lean ====
section
/-! SUPPORT. For each primitive update of the state, each field after it, by rfl. -/

namespace Sys2Proof.Machine

variable (s : State)

/-! ## writeReg -/

@[simp] theorem State.writeReg_regs (r : Reg) (v : Word) : (s.writeReg r v).regs = s.regs.set r v := rfl
@[simp] theorem State.writeReg_pc (r : Reg) (v : Word) : (s.writeReg r v).pc = s.pc := rfl
@[simp] theorem State.writeReg_cond (r : Reg) (v : Word) : (s.writeReg r v).cond = s.cond := rfl
@[simp] theorem State.writeReg_mem (r : Reg) (v : Word) : (s.writeReg r v).mem = s.mem := rfl
@[simp] theorem State.writeReg_run (r : Reg) (v : Word) : (s.writeReg r v).run = s.run := rfl
@[simp] theorem State.writeReg_stop (r : Reg) (v : Word) : (s.writeReg r v).stop = s.stop := rfl
@[simp] theorem State.writeReg_inq (r : Reg) (v : Word) : (s.writeReg r v).inq = s.inq := rfl
@[simp] theorem State.writeReg_out (r : Reg) (v : Word) : (s.writeReg r v).out = s.out := rfl
@[simp] theorem State.writeReg_flushed (r : Reg) (v : Word) : (s.writeReg r v).flushed = s.flushed := rfl
@[simp] theorem State.writeReg_wait (r : Reg) (v : Word) : (s.writeReg r v).wait = s.wait := rfl
@[simp] theorem State.writeReg_host (r : Reg) (v : Word) : (s.writeReg r v).host = s.host := rfl
@[simp] theorem State.writeReg_outFailAt (r : Reg) (v : Word) : (s.writeReg r v).outFailAt = s.outFailAt := rfl
@[simp] theorem State.writeReg_cfg (r : Reg) (v : Word) : (s.writeReg r v).cfg = s.cfg := rfl

/-! ## setPc -/

@[simp] theorem State.setPc_regs (a : Word) : (s.setPc a).regs = s.regs := rfl
@[simp] theorem State.setPc_pc (a : Word) : (s.setPc a).pc = a := rfl
@[simp] theorem State.setPc_cond (a : Word) : (s.setPc a).cond = s.cond := rfl
@[simp] theorem State.setPc_mem (a : Word) : (s.setPc a).mem = s.mem := rfl
@[simp] theorem State.setPc_run (a : Word) : (s.setPc a).run = s.run := rfl
@[simp] theorem State.setPc_stop (a : Word) : (s.setPc a).stop = s.stop := rfl
@[simp] theorem State.setPc_inq (a : Word) : (s.setPc a).inq = s.inq := rfl
@[simp] theorem State.setPc_out (a : Word) : (s.setPc a).out = s.out := rfl
@[simp] theorem State.setPc_flushed (a : Word) : (s.setPc a).flushed = s.flushed := rfl
@[simp] theorem State.setPc_wait (a : Word) : (s.setPc a).wait = s.wait := rfl
@[simp] theorem State.setPc_host (a : Word) : (s.setPc a).host = s.host := rfl
@[simp] theorem State.setPc_outFailAt (a : Word) : (s.setPc a).outFailAt = s.outFailAt := rfl
@[simp] theorem State.setPc_cfg (a : Word) : (s.setPc a).cfg = s.cfg := rfl

/-! ## setcc -/

@[simp] theorem State.setcc_regs (v : Word) : (s.setcc v).regs = s.regs := rfl
@[simp] theorem State.setcc_pc (v : Word) : (s.setcc v).pc = s.pc := rfl
@[simp] theorem State.setcc_cond (v : Word) : (s.setcc v).cond = condOf v := rfl
@[simp] theorem State.setcc_mem (v : Word) : (s.setcc v).mem = s.mem := rfl
@[simp] theorem State.setcc_run (v : Word) : (s.setcc v).run = s.run := rfl
@[simp] theorem State.setcc_stop (v : Word) : (s.setcc v).stop = s.stop := rfl
@[simp] theorem State.setcc_inq (v : Word) : (s.setcc v).inq = s.inq := rfl
@[simp] theorem State.setcc_out (v : Word) : (s.setcc v).out = s.out := rfl
@[simp] theorem State.setcc_flushed (v : Word) : (s.setcc v).flushed = s.flushed := rfl
@[simp] theorem State.setcc_wait (v : Word) : (s.setcc v).wait = s.wait := rfl
@[simp] theorem State.setcc_host (v : Word) : (s.setcc v).host = s.host := rfl
@[simp] theorem State.setcc_outFailAt (v : Word) : (s.setcc v).outFailAt = s.outFailAt := rfl
@[simp] theorem State.setcc_cfg (v : Word) : (s.setcc v).cfg = s.cfg := rfl

/-! ## store -/

@[simp] theorem State.store_regs (a v : Word) : (s.store a v).regs = s.regs := rfl
@[simp] theorem State.store_pc (a v : Word) : (s.store a v).pc = s.pc := rfl
@[simp] theorem State.store_cond (a v : Word) : (s.store a v).cond = s.cond := rfl
@[simp] theorem State.store_mem (a v : Word) : (s.store a v).mem = s.mem.write a.toNat v := rfl
@[simp] theorem State.store_run (a v : Word) : (s.store a v).run = s.run := rfl
@[simp] theorem State.store_stop (a v : Word) : (s.store a v).stop = s.stop := rfl
@[simp] theorem State.store_inq (a v : Word) : (s.store a v).inq = s.inq := rfl
@[simp] theorem State.store_out (a v : Word) : (s.store a v).out = s.out := rfl
@[simp] theorem State.store_flushed (a v : Word) : (s.store a v).flushed = s.flushed := rfl
@[simp] theorem State.store_wait (a v : Word) : (s.store a v).wait = s.wait := rfl
@[simp] theorem State.store_host (a v : Word) : (s.store a v).host = s.host := rfl
@[simp] theorem State.store_outFailAt (a v : Word) : (s.store a v).outFailAt = s.outFailAt := rfl
@[simp] theorem State.store_cfg (a v : Word) : (s.store a v).cfg = s.cfg := rfl

/-! ## haltWith -/

@[simp] theorem State.haltWith_regs (reason : HaltReason) : (s.haltWith reason).regs = s.regs := rfl
@[simp] theorem State.haltWith_pc (reason : HaltReason) : (s.haltWith reason).pc = s.pc := rfl
@[simp] theorem State.haltWith_cond (reason : HaltReason) : (s.haltWith reason).cond = s.cond := rfl
@[simp] theorem State.haltWith_mem (reason : HaltReason) : (s.haltWith reason).mem = s.mem := rfl
@[simp] theorem State.haltWith_run (reason : HaltReason) : (s.haltWith reason).run = .halted reason := rfl
@[simp] theorem State.haltWith_stop (reason : HaltReason) : (s.haltWith reason).stop = s.stop := rfl
@[simp] theorem State.haltWith_inq (reason : HaltReason) : (s.haltWith reason).inq = s.inq := rfl
@[simp] theorem State.haltWith_out (reason : HaltReason) : (s.haltWith reason).out = s.out := rfl
@[simp] theorem State.haltWith_flushed (reason : HaltReason) : (s.haltWith reason).flushed = s.flushed := rfl
@[simp] theorem State.haltWith_wait (reason : HaltReason) : (s.haltWith reason).wait = .ready := rfl
@[simp] theorem State.haltWith_host (reason : HaltReason) : (s.haltWith reason).host = s.host := rfl
@[simp] theorem State.haltWith_outFailAt (reason : HaltReason) : (s.haltWith reason).outFailAt = s.outFailAt := rfl
@[simp] theorem State.haltWith_cfg (reason : HaltReason) : (s.haltWith reason).cfg = s.cfg := rfl

/-! ## setWait -/

@[simp] theorem State.setWait_regs (w : Wait) : (s.setWait w).regs = s.regs := rfl
@[simp] theorem State.setWait_pc (w : Wait) : (s.setWait w).pc = s.pc := rfl
@[simp] theorem State.setWait_cond (w : Wait) : (s.setWait w).cond = s.cond := rfl
@[simp] theorem State.setWait_mem (w : Wait) : (s.setWait w).mem = s.mem := rfl
@[simp] theorem State.setWait_run (w : Wait) : (s.setWait w).run = s.run := rfl
@[simp] theorem State.setWait_stop (w : Wait) : (s.setWait w).stop = s.stop := rfl
@[simp] theorem State.setWait_inq (w : Wait) : (s.setWait w).inq = s.inq := rfl
@[simp] theorem State.setWait_out (w : Wait) : (s.setWait w).out = s.out := rfl
@[simp] theorem State.setWait_flushed (w : Wait) : (s.setWait w).flushed = s.flushed := rfl
@[simp] theorem State.setWait_wait (w : Wait) : (s.setWait w).wait = w := rfl
@[simp] theorem State.setWait_host (w : Wait) : (s.setWait w).host = s.host := rfl
@[simp] theorem State.setWait_outFailAt (w : Wait) : (s.setWait w).outFailAt = s.outFailAt := rfl
@[simp] theorem State.setWait_cfg (w : Wait) : (s.setWait w).cfg = s.cfg := rfl

/-! ## drawUsed -/

@[simp] theorem State.drawUsed_regs : s.drawUsed.regs = s.regs := rfl
@[simp] theorem State.drawUsed_pc : s.drawUsed.pc = s.pc := rfl
@[simp] theorem State.drawUsed_cond : s.drawUsed.cond = s.cond := rfl
@[simp] theorem State.drawUsed_mem : s.drawUsed.mem = s.mem := rfl
@[simp] theorem State.drawUsed_run : s.drawUsed.run = s.run := rfl
@[simp] theorem State.drawUsed_stop : s.drawUsed.stop = s.stop := rfl
@[simp] theorem State.drawUsed_inq : s.drawUsed.inq = s.inq := rfl
@[simp] theorem State.drawUsed_out : s.drawUsed.out = s.out := rfl
@[simp] theorem State.drawUsed_flushed : s.drawUsed.flushed = s.flushed := rfl
@[simp] theorem State.drawUsed_wait : s.drawUsed.wait = s.wait := rfl
@[simp] theorem State.drawUsed_host : s.drawUsed.host = s.host := rfl
@[simp] theorem State.drawUsed_outFailAt : s.drawUsed.outFailAt = s.outFailAt.map Nat.pred := rfl
@[simp] theorem State.drawUsed_cfg : s.drawUsed.cfg = s.cfg := rfl

/-! ## emit -/

@[simp] theorem State.emit_regs (b : Byte) : (s.emit b).regs = s.regs := rfl
@[simp] theorem State.emit_pc (b : Byte) : (s.emit b).pc = s.pc := rfl
@[simp] theorem State.emit_cond (b : Byte) : (s.emit b).cond = s.cond := rfl
@[simp] theorem State.emit_mem (b : Byte) : (s.emit b).mem = s.mem := rfl
@[simp] theorem State.emit_run (b : Byte) : (s.emit b).run = s.run := rfl
@[simp] theorem State.emit_stop (b : Byte) : (s.emit b).stop = s.stop := rfl
@[simp] theorem State.emit_inq (b : Byte) : (s.emit b).inq = s.inq := rfl
@[simp] theorem State.emit_out (b : Byte) : (s.emit b).out = s.out ++ [b] := rfl
@[simp] theorem State.emit_flushed (b : Byte) : (s.emit b).flushed = s.flushed := rfl
@[simp] theorem State.emit_wait (b : Byte) : (s.emit b).wait = s.wait := rfl
@[simp] theorem State.emit_host (b : Byte) : (s.emit b).host = s.host := rfl
@[simp] theorem State.emit_outFailAt (b : Byte) : (s.emit b).outFailAt = s.outFailAt := rfl
@[simp] theorem State.emit_cfg (b : Byte) : (s.emit b).cfg = s.cfg := rfl

/-! ## markFlushed -/

@[simp] theorem State.markFlushed_regs : s.markFlushed.regs = s.regs := rfl
@[simp] theorem State.markFlushed_pc : s.markFlushed.pc = s.pc := rfl
@[simp] theorem State.markFlushed_cond : s.markFlushed.cond = s.cond := rfl
@[simp] theorem State.markFlushed_mem : s.markFlushed.mem = s.mem := rfl
@[simp] theorem State.markFlushed_run : s.markFlushed.run = s.run := rfl
@[simp] theorem State.markFlushed_stop : s.markFlushed.stop = s.stop := rfl
@[simp] theorem State.markFlushed_inq : s.markFlushed.inq = s.inq := rfl
@[simp] theorem State.markFlushed_out : s.markFlushed.out = s.out := rfl
@[simp] theorem State.markFlushed_flushed : s.markFlushed.flushed = s.out.length := rfl
@[simp] theorem State.markFlushed_wait : s.markFlushed.wait = s.wait := rfl
@[simp] theorem State.markFlushed_host : s.markFlushed.host = s.host := rfl
@[simp] theorem State.markFlushed_outFailAt : s.markFlushed.outFailAt = s.outFailAt := rfl
@[simp] theorem State.markFlushed_cfg : s.markFlushed.cfg = s.cfg := rfl

/-! ## setInq -/

@[simp] theorem State.setInq_regs (q : List Byte) : (s.setInq q).regs = s.regs := rfl
@[simp] theorem State.setInq_pc (q : List Byte) : (s.setInq q).pc = s.pc := rfl
@[simp] theorem State.setInq_cond (q : List Byte) : (s.setInq q).cond = s.cond := rfl
@[simp] theorem State.setInq_mem (q : List Byte) : (s.setInq q).mem = s.mem := rfl
@[simp] theorem State.setInq_run (q : List Byte) : (s.setInq q).run = s.run := rfl
@[simp] theorem State.setInq_stop (q : List Byte) : (s.setInq q).stop = s.stop := rfl
@[simp] theorem State.setInq_inq (q : List Byte) : (s.setInq q).inq = q := rfl
@[simp] theorem State.setInq_out (q : List Byte) : (s.setInq q).out = s.out := rfl
@[simp] theorem State.setInq_flushed (q : List Byte) : (s.setInq q).flushed = s.flushed := rfl
@[simp] theorem State.setInq_wait (q : List Byte) : (s.setInq q).wait = s.wait := rfl
@[simp] theorem State.setInq_host (q : List Byte) : (s.setInq q).host = s.host := rfl
@[simp] theorem State.setInq_outFailAt (q : List Byte) : (s.setInq q).outFailAt = s.outFailAt := rfl
@[simp] theorem State.setInq_cfg (q : List Byte) : (s.setInq q).cfg = s.cfg := rfl

/-! ## showMore -/

@[simp] theorem State.showMore_regs (k : Nat) : (s.showMore k).regs = s.regs := rfl
@[simp] theorem State.showMore_pc (k : Nat) : (s.showMore k).pc = s.pc := rfl
@[simp] theorem State.showMore_cond (k : Nat) : (s.showMore k).cond = s.cond := rfl
@[simp] theorem State.showMore_mem (k : Nat) : (s.showMore k).mem = s.mem := rfl
@[simp] theorem State.showMore_run (k : Nat) : (s.showMore k).run = s.run := rfl
@[simp] theorem State.showMore_stop (k : Nat) : (s.showMore k).stop = s.stop := rfl
@[simp] theorem State.showMore_inq (k : Nat) : (s.showMore k).inq = s.inq := rfl
@[simp] theorem State.showMore_out (k : Nat) : (s.showMore k).out = s.out := rfl
@[simp] theorem State.showMore_flushed (k : Nat) : (s.showMore k).flushed = max s.flushed (min (s.flushed + k) s.out.length) := rfl
@[simp] theorem State.showMore_wait (k : Nat) : (s.showMore k).wait = s.wait := rfl
@[simp] theorem State.showMore_host (k : Nat) : (s.showMore k).host = s.host := rfl
@[simp] theorem State.showMore_outFailAt (k : Nat) : (s.showMore k).outFailAt = s.outFailAt := rfl
@[simp] theorem State.showMore_cfg (k : Nat) : (s.showMore k).cfg = s.cfg := rfl

/-! ## hostTurn -/

@[simp] theorem State.hostTurn_regs : s.hostTurn.regs = s.regs := by unfold State.hostTurn; split <;> rfl
@[simp] theorem State.hostTurn_pc : s.hostTurn.pc = s.pc := by unfold State.hostTurn; split <;> rfl
@[simp] theorem State.hostTurn_cond : s.hostTurn.cond = s.cond := by unfold State.hostTurn; split <;> rfl
@[simp] theorem State.hostTurn_mem : s.hostTurn.mem = s.mem := by unfold State.hostTurn; split <;> rfl
@[simp] theorem State.hostTurn_run : s.hostTurn.run = s.run := by unfold State.hostTurn; split <;> rfl
@[simp] theorem State.hostTurn_out : s.hostTurn.out = s.out := by unfold State.hostTurn; split <;> rfl
@[simp] theorem State.hostTurn_wait : s.hostTurn.wait = s.wait := by unfold State.hostTurn; split <;> rfl
@[simp] theorem State.hostTurn_outFailAt : s.hostTurn.outFailAt = s.outFailAt := by unfold State.hostTurn; split <;> rfl
@[simp] theorem State.hostTurn_cfg : s.hostTurn.cfg = s.cfg := by unfold State.hostTurn; split <;> rfl

end Sys2Proof.Machine
end

