-- ==== Sys2Proof/Laws/Ops.lean ====
section
/-! SUPPORT. For each shared operation, what it can do, said once. -/

namespace Sys2Proof.Machine

/-! ## Registers and stored words after each update -/

/-- A register after a register write: the only register that changes is the one written. -/
@[simp] theorem State.reg_writeReg (s : State) (q r : Reg) (v : Word) :
    (s.writeReg q v).reg r = if r = q then v else s.reg r := by
  simp [State.reg, State.writeReg, Vector.getElem_set, Fin.ext_iff, eq_comm]

/-- Registers depend on the register file alone. -/
theorem State.reg_congr {s t : State} (h : t.regs = s.regs) (r : Reg) : t.reg r = s.reg r := by
  simp [State.reg, h]

/-- Stored words depend on memory alone. -/
theorem State.stored_congr {s t : State} (h : t.mem = s.mem) (a : Word) : t.stored a = s.stored a := by
  simp [State.stored, h]

@[simp] theorem State.setPc_reg (s : State) (a : Word) (r : Reg) : (s.setPc a).reg r = s.reg r := rfl
@[simp] theorem State.setcc_reg (s : State) (v : Word) (r : Reg) : (s.setcc v).reg r = s.reg r := rfl
@[simp] theorem State.store_reg (s : State) (a v : Word) (r : Reg) : (s.store a v).reg r = s.reg r := rfl
@[simp] theorem State.haltWith_reg (s : State) (x : HaltReason) (r : Reg) : (s.haltWith x).reg r = s.reg r := rfl
@[simp] theorem State.setWait_reg (s : State) (w : Wait) (r : Reg) : (s.setWait w).reg r = s.reg r := rfl
@[simp] theorem State.setInq_reg (s : State) (q : List Byte) (r : Reg) : (s.setInq q).reg r = s.reg r := rfl
@[simp] theorem State.drawUsed_reg (s : State) (r : Reg) : s.drawUsed.reg r = s.reg r := rfl
@[simp] theorem State.emit_reg (s : State) (b : Byte) (r : Reg) : (s.emit b).reg r = s.reg r := rfl
@[simp] theorem State.markFlushed_reg (s : State) (r : Reg) : s.markFlushed.reg r = s.reg r := rfl
@[simp] theorem State.hostTurn_reg (s : State) (r : Reg) : s.hostTurn.reg r = s.reg r :=
  State.reg_congr (by simp) r

@[simp] theorem State.writeReg_stored (s : State) (r : Reg) (v a : Word) : (s.writeReg r v).stored a = s.stored a := rfl
@[simp] theorem State.setPc_stored (s : State) (b a : Word) : (s.setPc b).stored a = s.stored a := rfl
@[simp] theorem State.setcc_stored (s : State) (v a : Word) : (s.setcc v).stored a = s.stored a := rfl
@[simp] theorem State.haltWith_stored (s : State) (x : HaltReason) (a : Word) :
    (s.haltWith x).stored a = s.stored a := rfl
@[simp] theorem State.setWait_stored (s : State) (w : Wait) (a : Word) : (s.setWait w).stored a = s.stored a := rfl
@[simp] theorem State.setInq_stored (s : State) (q : List Byte) (a : Word) : (s.setInq q).stored a = s.stored a := rfl
@[simp] theorem State.drawUsed_stored (s : State) (a : Word) : s.drawUsed.stored a = s.stored a := rfl
@[simp] theorem State.emit_stored (s : State) (b : Byte) (a : Word) : (s.emit b).stored a = s.stored a := rfl
@[simp] theorem State.markFlushed_stored (s : State) (a : Word) : s.markFlushed.stored a = s.stored a := rfl
@[simp] theorem State.hostTurn_stored (s : State) (a : Word) : s.hostTurn.stored a = s.stored a :=
  State.stored_congr (by simp) a

/-- A stored word after a store (R42, R53). -/
@[simp] theorem State.stored_store (s : State) (a b v : Word) :
    (s.store a v).stored b = if b = a then v else s.stored b := by
  simp [State.stored, State.store, BitVec.toNat_inj]

/-- A store keeps the canonical form of memory. -/
theorem State.store_wf (s : State) (a v : Word) (h : s.mem.wf = true) : (s.store a v).mem.wf = true :=
  Memory.wf_write _ _ _ h (by simpa using a.isLt)

/-! ## The host's turn -/

/-- A host without a coming turn does nothing. -/
theorem State.hostTurn_nil {s : State} (h : s.host = []) : s.hostTurn = s := by
  simp [State.hostTurn, h]

/-- Everything a host's turn does (R129). -/
theorem State.hostTurn_cons {s : State} {m : HostMove} {rest : List HostMove} (h : s.host = m :: rest) :
    s.hostTurn = { s.showMore m.shows with
      inq := s.inq ++ m.arrives, stop := s.stop || m.setsStop, host := rest } := by
  simp [State.hostTurn, h]

/-- A host's turn hides no byte, and shows none that is not there (R33, R129). -/
theorem State.hostTurn_flushed (s : State) :
    s.flushed ≤ s.hostTurn.flushed ∧ (s.flushed ≤ s.out.length → s.hostTurn.flushed ≤ s.out.length) := by
  unfold State.hostTurn
  split
  · exact ⟨le_refl _, id⟩
  · rw [State.showMore_flushed]; omega

/-! ## writeResult and link -/

/-- Everything a flag-affecting write does (R27, R82). -/
theorem State.writeResult_eq (s : State) (dr : Reg) (v : Word) :
    s.writeResult dr v = (s.writeReg dr v).setcc v := by
  simp [State.writeResult]

/-- The flag rule in plain arithmetic (R82). -/
theorem flagOf_condOf (v : Word) : FlagOf v (condOf v) := by
  have h15 : v.getLsbD 15 = decide (2 ^ 15 ≤ v.toNat) := by
    simpa [BitVec.msb_eq_getLsbD_last] using BitVec.msb_eq_decide v
  have h0 : v = 0x0000#16 ↔ v.toNat = 0 := by
    rw [← BitVec.toNat_inj]; rfl
  unfold FlagOf condOf
  rw [h15]
  refine ⟨fun h => ?_, fun h => ?_, fun h h' => ?_⟩
  · rw [if_pos (h0.mpr h)]
  · rw [if_neg (by rw [h0]; omega), if_pos (by simpa using h)]
  · rw [if_neg (by rw [h0]; omega), if_neg (by simpa using h')]

/-- Everything R103's entry does. -/
theorem State.link_eq (s : State) : s.link = s.writeReg 7 s.pc := rfl

/-! ## The input collaborator and MemRead -/

/-- `InRead()` either waits or takes the oldest character (R32). -/
theorem State.inRead_cases (s : State) :
    (s.inq = [] ∧ s.inRead = none) ∨ ∃ c rest, s.inq = c :: rest ∧ s.inRead = some (c, s.setInq rest) := by
  unfold State.inRead
  split
  · exact .inl ⟨‹_›, rfl⟩
  · exact .inr ⟨_, _, ‹_›, rfl⟩

/-- Everything a poll does (R39, R40). -/
theorem State.pollKeyboard_cases (s : State) :
    (s.inq = [] ∧ s.pollKeyboard = s.store s.cfg.kbsrAddr 0#16) ∨
    ∃ c rest, s.inq = c :: rest ∧
      s.pollKeyboard =
        ((s.setInq rest).store s.cfg.kbsrAddr 0x8000#16).store s.cfg.kbdrAddr (zextField c) := by
  obtain ⟨h, e⟩ | ⟨c, rest, h, e⟩ := s.inRead_cases
  · exact .inl ⟨h, by simp [State.pollKeyboard, e]⟩
  · exact .inr ⟨c, rest, h, by simp [State.pollKeyboard, e]⟩

/-- A read away from the status address changes nothing (R41). -/
theorem State.memRead_other (s : State) {a : Word} (h : a ≠ s.cfg.kbsrAddr) : s.memRead a = (s.stored a, s) := by
  simp [State.memRead, h]

/-- A read of the status address polls first (R39). -/
theorem State.memRead_kbsr (s : State) :
    s.memRead s.cfg.kbsrAddr = (s.pollKeyboard.stored s.cfg.kbsrAddr, s.pollKeyboard) := by
  simp [State.memRead]

/-- What no read changes: everything but memory and `inq` (R39). -/
structure State.ReadFrame (s t : State) : Prop where
  regs : t.regs = s.regs
  pc : t.pc = s.pc
  cond : t.cond = s.cond
  run : t.run = s.run
  stop : t.stop = s.stop
  out : t.out = s.out
  flushed : t.flushed = s.flushed
  wait : t.wait = s.wait
  host : t.host = s.host
  outFailAt : t.outFailAt = s.outFailAt
  cfg : t.cfg = s.cfg
  inq : t.inq <:+ s.inq
  mem : ∀ a, a ≠ s.cfg.kbsrAddr → a ≠ s.cfg.kbdrAddr → t.stored a = s.stored a
  wf : s.mem.wf = true → t.mem.wf = true

theorem State.ReadFrame.refl (s : State) : s.ReadFrame s :=
  ⟨rfl, rfl, rfl, rfl, rfl, rfl, rfl, rfl, rfl, rfl, rfl, List.suffix_refl _, fun _ _ _ => rfl, id⟩

theorem State.ReadFrame.trans {s t u : State} (h : s.ReadFrame t) (k : t.ReadFrame u) : s.ReadFrame u where
  regs := k.regs.trans h.regs
  pc := k.pc.trans h.pc
  cond := k.cond.trans h.cond
  run := k.run.trans h.run
  stop := k.stop.trans h.stop
  out := k.out.trans h.out
  flushed := k.flushed.trans h.flushed
  wait := k.wait.trans h.wait
  host := k.host.trans h.host
  outFailAt := k.outFailAt.trans h.outFailAt
  cfg := k.cfg.trans h.cfg
  inq := k.inq.trans h.inq
  mem a h1 h2 := (k.mem a (by rwa [h.cfg]) (by rwa [h.cfg])).trans (h.mem a h1 h2)
  wf := k.wf ∘ h.wf

theorem State.pollKeyboard_frame (s : State) : s.ReadFrame s.pollKeyboard := by
  obtain ⟨h, e⟩ | ⟨c, rest, h, e⟩ := s.pollKeyboard_cases <;> rw [e]
  · exact ⟨rfl, rfl, rfl, rfl, rfl, rfl, rfl, rfl, rfl, rfl, rfl, by simp,
      fun a h1 _ => by simp [h1], s.store_wf _ _⟩
  · exact ⟨rfl, rfl, rfl, rfl, rfl, rfl, rfl, rfl, rfl, rfl, rfl, by simp [h],
      fun a h1 h2 => by simp [h1, h2],
      fun hw => State.store_wf _ _ _ (State.store_wf (s.setInq rest) _ _ hw)⟩

/-- What no `MemRead` changes. -/
theorem State.memRead_frame (s : State) (a : Word) : s.ReadFrame (s.memRead a).2 := by
  by_cases h : a = s.cfg.kbsrAddr
  · subst h; rw [State.memRead_kbsr]; exact s.pollKeyboard_frame
  · rw [State.memRead_other s h]; exact .refl s

/-- The word a `MemRead` returns is the one stored after it (R39). -/
theorem State.memRead_fst (s : State) (a : Word) : (s.memRead a).1 = (s.memRead a).2.stored a := rfl

/-- What no string read changes. -/
theorem State.stringRead_frame (s : State) (a : Word) : s.ReadFrame (s.stringRead a).2 := by
  unfold State.stringRead
  split
  · exact s.memRead_frame a
  · exact .refl s

/-- A string read that does not poll returns the stored word and changes nothing (R107, R43). -/
theorem State.stringRead_plain (s : State) (a : Word)
    (h : s.cfg.trapReadIntercepts = true → a ≠ s.cfg.kbsrAddr) : s.stringRead a = (s.stored a, s) := by
  unfold State.stringRead
  split
  · rename_i hc; exact s.memRead_other (h hc)
  · rfl

/-! ## The output collaborator -/

/-- Everything `Out` does (R33, R116). -/
theorem State.outByte_cases (s : State) (b : Byte) :
    (s.outFailAt = some 0 ∧ s.outByte b = .ended (s.haltWith .outputFailure)) ∨
    (s.outFailAt ≠ some 0 ∧ s.outByte b = .goesOn (s.drawUsed.emit b)) := by
  by_cases h : s.outFailAt = some 0
  · exact .inl ⟨h, by simp [State.outByte, State.outputFails, h, State.raiseOutputFailure]⟩
  · exact .inr ⟨h, by simp [State.outByte, State.outputFails, h]⟩

/-- Everything `Flush` does (R33, R116). -/
theorem State.flush_cases (s : State) :
    (s.outFailAt = some 0 ∧ s.flush = .ended (s.haltWith .outputFailure)) ∨
    (s.outFailAt ≠ some 0 ∧ s.flush = .goesOn s.drawUsed.markFlushed) := by
  by_cases h : s.outFailAt = some 0
  · exact .inl ⟨h, by simp [State.flush, State.outputFails, h, State.raiseOutputFailure]⟩
  · exact .inr ⟨h, by simp [State.flush, State.outputFails, h]⟩

/-- A premise of success covers fewer calls too. -/
theorem OutputGood.mono {j k : Nat} {s : State} (h : OutputGood k s) (hjk : j ≤ k) : OutputGood j s := by
  obtain h | ⟨n, h, hn⟩ := h
  · exact .inl h
  · exact .inr ⟨n, h, hjk.trans hn⟩

/-- With a good draw the first call succeeds. -/
theorem OutputGood.ne_zero {k : Nat} {s : State} (h : OutputGood (k + 1) s) : s.outFailAt ≠ some 0 := by
  obtain h | ⟨n, h, hn⟩ := h <;> rw [h]
  · simp
  · simp; omega

/-- After a successful call one draw fewer is known. -/
theorem OutputGood.drawUsed {k : Nat} {s t : State} (h : OutputGood (k + 1) s) (ht : t.outFailAt = s.outFailAt.map Nat.pred) :
    OutputGood k t := by
  obtain h | ⟨n, h, hn⟩ := h
  · exact .inl (by simp [ht, h])
  · exact .inr ⟨n - 1, by simp [ht, h], by omega⟩

theorem State.outByte_good {k : Nat} {s : State} (b : Byte) (h : OutputGood (k + 1) s) :
    s.outByte b = .goesOn (s.drawUsed.emit b) := by
  obtain ⟨h0, _⟩ | ⟨_, e⟩ := s.outByte_cases b
  · exact absurd h0 h.ne_zero
  · exact e

theorem State.flush_good {k : Nat} {s : State} (h : OutputGood (k + 1) s) :
    s.flush = .goesOn s.drawUsed.markFlushed := by
  obtain ⟨h0, _⟩ | ⟨_, e⟩ := s.flush_cases
  · exact absurd h0 h.ne_zero
  · exact e

/-- What no output call changes, whether it fails or not: everything but the output side, and `run` and `wait`, which a
failure writes (R116). -/
structure State.OutFrame (s t : State) : Prop where
  regs : t.regs = s.regs
  pc : t.pc = s.pc
  cond : t.cond = s.cond
  mem : t.mem = s.mem
  stop : t.stop = s.stop
  inq : t.inq = s.inq
  host : t.host = s.host
  cfg : t.cfg = s.cfg
  out : s.out <+: t.out
  flushed : s.flushed ≤ s.out.length → t.flushed ≤ t.out.length
  run : (t.run = s.run ∧ t.wait = s.wait) ∨
    (t.run = .halted .outputFailure ∧ t.wait = .ready ∧ s.outFailAt ≠ none)
  fails : s.outFailAt = none → t.outFailAt = none

theorem State.OutFrame.refl (s : State) : s.OutFrame s :=
  ⟨rfl, rfl, rfl, rfl, rfl, rfl, rfl, rfl, List.prefix_refl _, id, .inl ⟨rfl, rfl⟩, id⟩

theorem State.OutFrame.trans {s t u : State} (h : s.OutFrame t) (k : t.OutFrame u) : s.OutFrame u where
  regs := k.regs.trans h.regs
  pc := k.pc.trans h.pc
  cond := k.cond.trans h.cond
  mem := k.mem.trans h.mem
  stop := k.stop.trans h.stop
  inq := k.inq.trans h.inq
  host := k.host.trans h.host
  cfg := k.cfg.trans h.cfg
  out := h.out.trans k.out
  flushed := k.flushed ∘ h.flushed
  run := by
    obtain ⟨r, w⟩ | ⟨r, w, f⟩ := k.run
    · obtain ⟨r', w'⟩ | ⟨r', w', f'⟩ := h.run
      · exact .inl ⟨r.trans r', w.trans w'⟩
      · exact .inr ⟨r.trans r', w.trans w', f'⟩
    · exact .inr ⟨r, w, fun e => f (h.fails e)⟩
  fails := k.fails ∘ h.fails

theorem State.outByte_frame (s : State) (b : Byte) : s.OutFrame (s.outByte b).state := by
  obtain ⟨h, e⟩ | ⟨h, e⟩ := s.outByte_cases b <;> rw [e]
  · exact ⟨rfl, rfl, rfl, rfl, rfl, rfl, rfl, rfl, List.prefix_refl _, id, .inr ⟨rfl, rfl, by simp [h]⟩, id⟩
  · exact ⟨rfl, rfl, rfl, rfl, rfl, rfl, rfl, rfl, List.prefix_append _ _,
      fun k => by simp [Ran.state]; omega, .inl ⟨rfl, rfl⟩, fun k => by simp [Ran.state, k]⟩

theorem State.flush_frame (s : State) : s.OutFrame s.flush.state := by
  obtain ⟨h, e⟩ | ⟨h, e⟩ := s.flush_cases <;> rw [e]
  · exact ⟨rfl, rfl, rfl, rfl, rfl, rfl, rfl, rfl, List.prefix_refl _, id, .inr ⟨rfl, rfl, by simp [h]⟩, id⟩
  · exact ⟨rfl, rfl, rfl, rfl, rfl, rfl, rfl, rfl, List.prefix_refl _, fun _ => le_refl _, .inl ⟨rfl, rfl⟩,
      fun k => by simp [Ran.state, k]⟩

/-- A frame of two parts of a service is a frame of both in sequence. -/
theorem State.OutFrame.andThen {s : State} {r : Ran} {f : State → Ran} (hr : s.OutFrame r.state)
    (hf : ∀ t : State, t.OutFrame (f t).state) : s.OutFrame (r.andThen f).state := by
  cases r with
  | goesOn t => exact hr.trans (hf t)
  | ended t => exact hr

theorem outBytes_frame (bs : List Byte) (s : State) : s.OutFrame (outBytes bs s).state := by
  induction bs generalizing s with
  | nil => exact .refl s
  | cons b rest ih => exact .andThen (s.outByte_frame b) ih

/-- The state after as many successful `Out` calls as there are bytes. -/
def State.emitted (bs : List Byte) (s : State) : State :=
  { s with out := s.out ++ bs, outFailAt := s.outFailAt.map (· - bs.length) }

@[simp] theorem State.emitted_regs (s : State) (bs : List Byte) : (s.emitted bs).regs = s.regs := rfl
@[simp] theorem State.emitted_pc (s : State) (bs : List Byte) : (s.emitted bs).pc = s.pc := rfl
@[simp] theorem State.emitted_cond (s : State) (bs : List Byte) : (s.emitted bs).cond = s.cond := rfl
@[simp] theorem State.emitted_mem (s : State) (bs : List Byte) : (s.emitted bs).mem = s.mem := rfl
@[simp] theorem State.emitted_run (s : State) (bs : List Byte) : (s.emitted bs).run = s.run := rfl
@[simp] theorem State.emitted_stop (s : State) (bs : List Byte) : (s.emitted bs).stop = s.stop := rfl
@[simp] theorem State.emitted_inq (s : State) (bs : List Byte) : (s.emitted bs).inq = s.inq := rfl
@[simp] theorem State.emitted_out (s : State) (bs : List Byte) : (s.emitted bs).out = s.out ++ bs := rfl
@[simp] theorem State.emitted_flushed (s : State) (bs : List Byte) : (s.emitted bs).flushed = s.flushed := rfl
@[simp] theorem State.emitted_wait (s : State) (bs : List Byte) : (s.emitted bs).wait = s.wait := rfl
@[simp] theorem State.emitted_host (s : State) (bs : List Byte) : (s.emitted bs).host = s.host := rfl
@[simp] theorem State.emitted_outFailAt (s : State) (bs : List Byte) : (s.emitted bs).outFailAt = s.outFailAt.map (· - bs.length) := rfl
@[simp] theorem State.emitted_cfg (s : State) (bs : List Byte) : (s.emitted bs).cfg = s.cfg := rfl
@[simp] theorem State.emitted_reg (s : State) (bs : List Byte) (r : Reg) : (s.emitted bs).reg r = s.reg r := rfl
@[simp] theorem State.emitted_stored (s : State) (bs : List Byte) (a : Word) : (s.emitted bs).stored a = s.stored a := rfl

theorem State.emitted_nil (s : State) : s.emitted [] = s := by
  simp [State.emitted]

/-- One byte and then the rest. -/
theorem State.emitted_cons (s : State) (b : Byte) (bs : List Byte) :
    (s.drawUsed.emit b).emitted bs = s.emitted (b :: bs) := by
  simp only [State.emitted, State.emit, State.drawUsed, List.append_assoc, List.cons_append, List.nil_append,
    List.length_cons, Option.map_map]
  congr 1
  cases s.outFailAt <;> simp [Nat.pred_eq_sub_one, Nat.sub_sub, Nat.add_comm]

/-- Draws that are good for more calls than the bytes take are good for the calls after them. -/
theorem OutputGood.emitted {k : Nat} {s : State} {bs : List Byte} (h : OutputGood (bs.length + k) s) :
    OutputGood k (s.emitted bs) := by
  obtain h | ⟨n, h, hn⟩ := h
  · exact .inl (by simp [h])
  · exact .inr ⟨n - bs.length, by simp [h], by omega⟩

/-- With good draws, the bytes are appended. -/
theorem outBytes_good {bs : List Byte} {s : State} (h : OutputGood bs.length s) :
    outBytes bs s = .goesOn (s.emitted bs) := by
  induction bs generalizing s with
  | nil => simp [outBytes, State.emitted_nil]
  | cons b rest ih =>
    have h1 : OutputGood rest.length (s.drawUsed.emit b) := OutputGood.drawUsed h rfl
    rw [outBytes, State.outByte_good b h, Ran.andThen, ih h1, State.emitted_cons]

/-- The draw that fails at call `k` lets the bytes before it out, and ends the run there. -/
theorem outBytes_fails {bs : List Byte} {k : Nat} {s : State} (h : s.outFailAt = some k) (hk : k < bs.length) :
    outBytes bs s = .ended (s.emitted (bs.take k)).raiseOutputFailure := by
  induction bs generalizing s k with
  | nil => simp at hk
  | cons b rest ih =>
    cases k with
    | zero =>
      obtain ⟨_, e⟩ | ⟨h0, _⟩ := s.outByte_cases b
      · rw [outBytes, e, List.take_zero, State.emitted_nil]; rfl
      · exact absurd h h0
    | succ k =>
      obtain ⟨h0, _⟩ | ⟨_, e⟩ := s.outByte_cases b
      · rw [h] at h0; simp at h0
      · rw [outBytes, e, Ran.andThen, ih (k := k) (by simp [h]) (by simpa using hk), State.emitted_cons, List.take_succ_cons]

/-! ## The TRAP entry -/

/-- Registers after the TRAP entry (R103): R7 holds pc, the others are as before. -/
@[simp] theorem State.link_reg (s : State) (r : Reg) : s.link.reg r = if r = 7 then s.pc else s.reg r := by
  simp [State.link_eq]

@[simp] theorem State.link_stored (s : State) (a : Word) : s.link.stored a = s.stored a := rfl
@[simp] theorem State.link_pc (s : State) : s.link.pc = s.pc := rfl
@[simp] theorem State.link_cond (s : State) : s.link.cond = s.cond := rfl
@[simp] theorem State.link_mem (s : State) : s.link.mem = s.mem := rfl
@[simp] theorem State.link_run (s : State) : s.link.run = s.run := rfl
@[simp] theorem State.link_stop (s : State) : s.link.stop = s.stop := rfl
@[simp] theorem State.link_inq (s : State) : s.link.inq = s.inq := rfl
@[simp] theorem State.link_out (s : State) : s.link.out = s.out := rfl
@[simp] theorem State.link_flushed (s : State) : s.link.flushed = s.flushed := rfl
@[simp] theorem State.link_wait (s : State) : s.link.wait = s.wait := rfl
@[simp] theorem State.link_host (s : State) : s.link.host = s.host := rfl
@[simp] theorem State.link_outFailAt (s : State) : s.link.outFailAt = s.outFailAt := rfl
@[simp] theorem State.link_cfg (s : State) : s.link.cfg = s.cfg := rfl

/-- R0 and the flags after a character is taken (R105, R108). -/
theorem State.takeCharacter_eq (s : State) (c : Byte) :
    s.takeCharacter c = (s.writeReg 0 (zextField c)).setcc (zextField c) := by
  simp [State.takeCharacter, State.writeResult_eq, serviceReg]

/-- A character's word has the character's value (R105, D9). -/
@[simp] theorem zextField_byte_toNat (c : Byte) : (zextField c).toNat = c.toNat := by
  have := c.isLt
  simp [zextField]
  omega

/-- The low byte, as a truncation. -/
theorem lowByte_eq (w : Word) : lowByte w = w.setWidth 8 := by
  ext i hi
  simp [lowByte]

/-- The low byte in plain arithmetic (R45). -/
@[simp] theorem loByte_eq (w : Word) : loByte w = lowByte w := by
  apply BitVec.eq_of_toNat_eq
  simp [loByte, lowByte]

/-- The high byte in plain arithmetic (R45). -/
@[simp] theorem hiByte_eq (w : Word) : hiByte w = highByte w := by
  apply BitVec.eq_of_toNat_eq
  simp [hiByte, highByte, Nat.shiftRight_eq_div_pow]

/-- What a string read gives is what the rules' read gives, and nothing else (R43, R107). -/
theorem stringReads_iff (a : Word) (s : State) (w : Word) (t : State) :
    StringReads a s w t ↔ s.stringRead a = (w, t) := by
  unfold StringReads State.stringRead
  cases s.cfg.trapReadIntercepts <;> simp

/-- Adding a signed field's value is adding its sign extension (R11, R12). -/
theorem plusSigned_eq {n : Nat} (b : Word) (f : BitVec n) : plusSigned b f = b + sextField f := by
  rw [plusSigned, sextField, BitVec.signExtend, ← BitVec.toInt_inj]
  simp [BitVec.toInt_add]
  rw [show b.toInt = (b.toNat : Int).bmod 65536 from BitVec.toInt_eq_toNat_bmod b, Int.bmod_add_bmod]

/-- What a flag-affecting write leaves, in the claims' terms (R27, R82). -/
theorem State.writeResult_spec (s : State) (dr : Reg) (v : Word) :
    WritesResult dr v s (s.writeResult dr v) ∧ SameOutside s (s.writeResult dr v) := by
  rw [State.writeResult_eq]
  refine ⟨⟨by simp, flagOf_condOf v, fun r hr => ?_, rfl⟩, fun _ => rfl, ⟨rfl, rfl, rfl⟩, ⟨rfl, rfl, rfl⟩, ⟨rfl, rfl, rfl⟩⟩
  have : r ≠ dr := by simpa using hr
  simp [this]

/-- What a load leaves (R91-R93): DR and the flags from the word read, and what the read itself did. -/
theorem loadInto_spec (s : State) (ea : Word) (dr : Reg) :
    WritesResult dr (s.memRead ea).1 s (loadInto dr ea s) ∧ SameOutside (s.memRead ea).2 (loadInto dr ea s) := by
  have f := s.memRead_frame ea
  obtain ⟨w, o⟩ := (s.memRead ea).2.writeResult_spec dr (s.memRead ea).1
  exact ⟨⟨w.1, w.2.1, fun r hr => (w.2.2.1 r hr).trans (State.reg_congr f.regs r), w.2.2.2.trans f.pc⟩, o⟩

end Sys2Proof.Machine
end

