-- ==== Sys2Proof/Laws/PerInstr.lean ====
section
/-! SUPPORT. A family of statements, one lemma per instruction: the word of an instruction carries its opcode (R73). -/

namespace Sys2Proof.Laws

/-- The opcode R73 gives an instruction. -/
def opcodeNumber : Instr → BitVec 4
  | .br _ _ _ _ => 0#4
  | .addReg _ _ _ => 1#4
  | .addImm _ _ _ => 1#4
  | .ld _ _ => 2#4
  | .st _ _ => 3#4
  | .jsrr _ => 4#4
  | .jsr _ => 4#4
  | .andReg _ _ _ => 5#4
  | .andImm _ _ _ => 5#4
  | .ldr _ _ _ => 6#4
  | .str _ _ _ => 7#4
  | .opcode8 _ => 8#4
  | .notReg _ _ => 9#4
  | .ldi _ _ => 10#4
  | .sti _ _ => 11#4
  | .jmp _ => 12#4
  | .opcode13 _ => 13#4
  | .lea _ _ => 14#4
  | .trap _ _ => 15#4
  | .trapGetc => 15#4
  | .trapOut => 15#4
  | .trapPuts => 15#4
  | .trapIn => 15#4
  | .trapPutsp => 15#4
  | .trapHalt => 15#4
  | .trapUndefined _ _ => 15#4

/-- Bits 15:12 of the encoded word are the opcode (R60, R73). -/
def EncodeOpcode.Statement (i : Instr) : Prop := opcodeOf (encode i) = opcodeNumber i

theorem EncodeOpcode.br (n z p : Bool) (off9 : BitVec 9) : EncodeOpcode.Statement (.br n z p off9) := opcodeOf_fmtBR _ _ _ _
theorem EncodeOpcode.addReg (dr sr1 sr2 : Reg) : EncodeOpcode.Statement (.addReg dr sr1 sr2) := opcodeOf_fmtRR _ _ _ _ _
theorem EncodeOpcode.addImm (dr sr1 : Reg) (imm5 : BitVec 5) : EncodeOpcode.Statement (.addImm dr sr1 imm5) := opcodeOf_fmtRI _ _ _ _
theorem EncodeOpcode.ld (dr : Reg) (off9 : BitVec 9) : EncodeOpcode.Statement (.ld dr off9) := opcodeOf_fmtPC9 _ _ _
theorem EncodeOpcode.st (sr : Reg) (off9 : BitVec 9) : EncodeOpcode.Statement (.st sr off9) := opcodeOf_fmtPC9 _ _ _
theorem EncodeOpcode.jsrr (baseR : Reg) : EncodeOpcode.Statement (.jsrr baseR) := opcodeOf_fmtBJ _ _ _
theorem EncodeOpcode.jsr (off11 : BitVec 11) : EncodeOpcode.Statement (.jsr off11) := opcodeOf_fmtPC11 _
theorem EncodeOpcode.andReg (dr sr1 sr2 : Reg) : EncodeOpcode.Statement (.andReg dr sr1 sr2) := opcodeOf_fmtRR _ _ _ _ _
theorem EncodeOpcode.andImm (dr sr1 : Reg) (imm5 : BitVec 5) : EncodeOpcode.Statement (.andImm dr sr1 imm5) := opcodeOf_fmtRI _ _ _ _
theorem EncodeOpcode.ldr (dr baseR : Reg) (off6 : BitVec 6) : EncodeOpcode.Statement (.ldr dr baseR off6) := opcodeOf_fmtB6 _ _ _ _
theorem EncodeOpcode.str (sr baseR : Reg) (off6 : BitVec 6) : EncodeOpcode.Statement (.str sr baseR off6) := opcodeOf_fmtB6 _ _ _ _
theorem EncodeOpcode.opcode8 (low : BitVec 12) : EncodeOpcode.Statement (.opcode8 low) := opcodeOf_fmtILL _ _
theorem EncodeOpcode.notReg (dr sr : Reg) : EncodeOpcode.Statement (.notReg dr sr) := opcodeOf_fmtR2 _ _ _
theorem EncodeOpcode.ldi (dr : Reg) (off9 : BitVec 9) : EncodeOpcode.Statement (.ldi dr off9) := opcodeOf_fmtPC9 _ _ _
theorem EncodeOpcode.sti (sr : Reg) (off9 : BitVec 9) : EncodeOpcode.Statement (.sti sr off9) := opcodeOf_fmtPC9 _ _ _
theorem EncodeOpcode.jmp (baseR : Reg) : EncodeOpcode.Statement (.jmp baseR) := opcodeOf_fmtB _ _ _
theorem EncodeOpcode.opcode13 (low : BitVec 12) : EncodeOpcode.Statement (.opcode13 low) := opcodeOf_fmtILL _ _
theorem EncodeOpcode.lea (dr : Reg) (off9 : BitVec 9) : EncodeOpcode.Statement (.lea dr off9) := opcodeOf_fmtPC9 _ _ _
theorem EncodeOpcode.trap (high : BitVec 4) (trapvect8 : BitVec 8) : EncodeOpcode.Statement (.trap high trapvect8) := opcodeOf_fmtT _ _
theorem EncodeOpcode.trapGetc : EncodeOpcode.Statement (.trapGetc) := opcodeOf_fmtT _ _
theorem EncodeOpcode.trapOut : EncodeOpcode.Statement (.trapOut) := opcodeOf_fmtT _ _
theorem EncodeOpcode.trapPuts : EncodeOpcode.Statement (.trapPuts) := opcodeOf_fmtT _ _
theorem EncodeOpcode.trapIn : EncodeOpcode.Statement (.trapIn) := opcodeOf_fmtT _ _
theorem EncodeOpcode.trapPutsp : EncodeOpcode.Statement (.trapPutsp) := opcodeOf_fmtT _ _
theorem EncodeOpcode.trapHalt : EncodeOpcode.Statement (.trapHalt) := opcodeOf_fmtT _ _
theorem EncodeOpcode.trapUndefined (high : BitVec 4) (trapvect8 : BitVec 8) : EncodeOpcode.Statement (.trapUndefined high trapvect8) := opcodeOf_fmtT _ _

end Sys2Proof.Laws
end

