-- ==== Sys2Proof/Laws/Services.lean ====
section
/-! SUPPORT. What the trap services can do: the frames of the string loops, the echo and the services, and that more
fuel changes no loop that has ended. -/

namespace Sys2Proof.Machine

/-- What memory reads and output calls leave alone, whether an output call fails or not (R39, R33, R116). -/
structure State.CallFrame (s t : State) : Prop where
  regs : t.regs = s.regs
  pc : t.pc = s.pc
  cond : t.cond = s.cond
  stop : t.stop = s.stop
  host : t.host = s.host
  cfg : t.cfg = s.cfg
  inq : t.inq <:+ s.inq
  out : s.out <+: t.out
  flushed : s.flushed ≤ s.out.length → t.flushed ≤ t.out.length
  run : (t.run = s.run ∧ t.wait = s.wait) ∨
    (t.run = .halted .outputFailure ∧ t.wait = .ready ∧ s.outFailAt ≠ none)
  fails : s.outFailAt = none → t.outFailAt = none
  mem : ∀ a, a ≠ s.cfg.kbsrAddr → a ≠ s.cfg.kbdrAddr → t.stored a = s.stored a
  wf : s.mem.wf = true → t.mem.wf = true

theorem State.ReadFrame.call {s t : State} (h : s.ReadFrame t) : s.CallFrame t :=
  ⟨h.regs, h.pc, h.cond, h.stop, h.host, h.cfg, h.inq, by simp [h.out], by simp [h.out, h.flushed],
    .inl ⟨h.run, h.wait⟩, h.outFailAt.trans, h.mem, h.wf⟩

theorem State.OutFrame.call {s t : State} (h : s.OutFrame t) : s.CallFrame t :=
  ⟨h.regs, h.pc, h.cond, h.stop, h.host, h.cfg, by simp [h.inq], h.out, h.flushed, h.run, h.fails,
    fun a _ _ => State.stored_congr h.mem a, by simp [h.mem]⟩

theorem State.CallFrame.refl (s : State) : s.CallFrame s := (State.ReadFrame.refl s).call

theorem State.CallFrame.trans {s t u : State} (h : s.CallFrame t) (k : t.CallFrame u) : s.CallFrame u where
  regs := k.regs.trans h.regs
  pc := k.pc.trans h.pc
  cond := k.cond.trans h.cond
  stop := k.stop.trans h.stop
  host := k.host.trans h.host
  cfg := k.cfg.trans h.cfg
  inq := k.inq.trans h.inq
  out := h.out.trans k.out
  flushed := k.flushed ∘ h.flushed
  run := by
    obtain ⟨r, w⟩ | ⟨r, w, f⟩ := k.run
    · obtain ⟨r', w'⟩ | ⟨r', w', f'⟩ := h.run
      · exact .inl ⟨r.trans r', w.trans w'⟩
      · exact .inr ⟨r.trans r', w.trans w', f'⟩
    · exact .inr ⟨r, w, fun e => f (h.fails e)⟩
  fails := k.fails ∘ h.fails
  mem a h1 h2 := (k.mem a (by rwa [h.cfg]) (by rwa [h.cfg])).trans (h.mem a h1 h2)
  wf := k.wf ∘ h.wf

/-! ## The string loops -/

/-- What the loop of PUTS leaves alone. -/
theorem putsLoop_frame {n : Nat} {a : Word} {s : State} {r : Ran} (h : putsLoop n a s = some r) :
    s.CallFrame r.state := by
  induction n generalizing a s with
  | zero => simp [putsLoop] at h
  | succ n ih =>
    have f := (s.stringRead_frame a).call
    rw [putsLoop] at h
    split at h
    · cases h; exact f.trans (State.flush_frame _).call
    · have g := ((s.stringRead a).2.outByte_frame (lowByte (s.stringRead a).1)).call
      split at h <;> rename_i e <;> rw [e] at g
      · cases h; exact f.trans g
      · exact (f.trans g).trans (ih h)

/-- What the loop of PUTSP leaves alone. -/
theorem putspLoop_frame {n : Nat} {a : Word} {s : State} {r : Ran} (h : putspLoop n a s = some r) :
    s.CallFrame r.state := by
  induction n generalizing a s with
  | zero => simp [putspLoop] at h
  | succ n ih =>
    have f := (s.stringRead_frame a).call
    rw [putspLoop] at h
    split at h
    · cases h; exact f.trans (State.flush_frame _).call
    · have g := ((s.stringRead a).2.outByte_frame (lowByte (s.stringRead a).1)).call
      split at h <;> rename_i e <;> rw [e] at g
      · cases h; exact f.trans g
      · rename_i t
        split at h
        · cases h; exact (f.trans g).trans t.flush_frame.call
        · have g' := (t.outByte_frame (highByte (s.stringRead a).1)).call
          split at h <;> rename_i e' <;> rw [e'] at g'
          · cases h; exact (f.trans g).trans g'
          · exact ((f.trans g).trans g').trans (ih h)

/-- More fuel changes no loop of PUTS that has ended. -/
theorem putsLoop_mono {n m : Nat} {a : Word} {s : State} {r : Ran} (h : putsLoop n a s = some r) (hm : n ≤ m) :
    putsLoop m a s = some r := by
  induction n generalizing m a s with
  | zero => simp [putsLoop] at h
  | succ n ih =>
    obtain ⟨m, rfl⟩ := Nat.exists_eq_add_of_le' hm
    rw [putsLoop] at h
    rw [Nat.add_succ, putsLoop]
    split at h
    · rw [if_pos ‹_›]; exact h
    · rw [if_neg ‹_›]
      split at h
      · exact h
      · exact ih h (by omega)

/-- More fuel changes no loop of PUTSP that has ended. -/
theorem putspLoop_mono {n m : Nat} {a : Word} {s : State} {r : Ran} (h : putspLoop n a s = some r) (hm : n ≤ m) :
    putspLoop m a s = some r := by
  induction n generalizing m a s with
  | zero => simp [putspLoop] at h
  | succ n ih =>
    obtain ⟨m, rfl⟩ := Nat.exists_eq_add_of_le' hm
    rw [putspLoop] at h
    rw [Nat.add_succ, putspLoop]
    split at h
    · rw [if_pos ‹_›]; exact h
    · rw [if_neg ‹_›]
      split at h
      · exact h
      · split at h
        · rw [if_pos ‹_›]; exact h
        · rw [if_neg ‹_›]
          split at h
          · exact h
          · exact ih h (by omega)

/-! ## A series of output calls -/

/-- What a series of output calls from `s` leaves: all of them succeeded, or one failed and the run ended there
(R33, R113, R116). -/
inductive State.OutputRan (s : State) : Ran → Prop where
  | goesOn {t : State} : s.OutFrame t → t.run = s.run → t.wait = s.wait → s.OutputRan (.goesOn t)
  | ended {t : State} : s.OutFrame t → t.run = .halted .outputFailure → t.wait = .ready → s.outFailAt ≠ none →
      s.OutputRan (.ended t)

theorem State.outByte_ran (s : State) (b : Byte) : s.OutputRan (s.outByte b) := by
  have f := s.outByte_frame b
  obtain ⟨h, e⟩ | ⟨_, e⟩ := s.outByte_cases b <;> rw [e] at f ⊢
  · exact .ended f rfl rfl (by simp [h])
  · exact .goesOn f rfl rfl

theorem State.flush_ran (s : State) : s.OutputRan s.flush := by
  have f := s.flush_frame
  obtain ⟨h, e⟩ | ⟨_, e⟩ := s.flush_cases <;> rw [e] at f ⊢
  · exact .ended f rfl rfl (by simp [h])
  · exact .goesOn f rfl rfl

theorem State.OutputRan.andThen {s : State} {r : Ran} {f : State → Ran} (hr : s.OutputRan r)
    (hf : ∀ t : State, t.OutputRan (f t)) : s.OutputRan (r.andThen f) := by
  cases hr with
  | ended g a b c => exact .ended g a b c
  | goesOn g a b =>
    rename_i t
    have ht := hf t
    simp only [Ran.andThen]
    generalize f t = q at ht ⊢
    cases ht with
    | goesOn g' a' b' => exact .goesOn (g.trans g') (a'.trans a) (b'.trans b)
    | ended g' a' b' c' => exact .ended (g.trans g') a' b' fun e => c' (g.fails e)

theorem outBytes_ran (bs : List Byte) (s : State) : s.OutputRan (outBytes bs s) := by
  induction bs generalizing s with
  | nil => exact .goesOn (.refl s) rfl rfl
  | cons b rest ih => exact .andThen (s.outByte_ran b) ih

/-- What OUT leaves (R106). -/
theorem serviceOut_ran (s : State) : s.OutputRan (serviceOut s) := .andThen (s.outByte_ran _) State.flush_ran

/-- HALT's calls: flush, the notice, flush (R110). -/
theorem haltCalls_ran (s : State) :
    s.OutputRan ((s.flush.andThen (fun t => outBytes t.cfg.haltNotice t)).andThen State.flush) :=
  .andThen (.andThen s.flush_ran fun t => outBytes_ran _ t) State.flush_ran

/-- IN's calls before its read: the prompt, flush (R108). -/
theorem promptCalls_ran (s : State) : s.OutputRan ((outBytes s.cfg.inPrompt s).andThen State.flush) :=
  .andThen (outBytes_ran _ s) State.flush_ran

/-- IN's calls after its read: the echo, flush (R108). -/
theorem echoCalls_ran (c : Byte) (s : State) : s.OutputRan ((s.outByte c).andThen State.flush) :=
  .andThen (s.outByte_ran c) State.flush_ran

/-! ## GETC and IN -/

/-- Everything GETC does from InRead() on (R105, R112). -/
theorem serviceGetc_cases (s : State) :
    (s.inq = [] ∧ serviceGetc s = s.setWait .getc) ∨
    ∃ c rest, s.inq = c :: rest ∧ serviceGetc s = (s.setInq rest).takeCharacter c := by
  obtain ⟨h, e⟩ | ⟨c, rest, h, e⟩ := s.inRead_cases
  · exact .inl ⟨h, by simp [serviceGetc, e]⟩
  · exact .inr ⟨c, rest, h, by simp [serviceGetc, e]⟩

/-- Everything IN does from InRead() on (R108, R112). -/
theorem inputFromRead_cases (s : State) :
    (s.inq = [] ∧ inputFromRead s = .goesOn (s.setWait .input)) ∨
    ∃ c rest, s.inq = c :: rest ∧ inputFromRead s = echoCharacter c (s.setInq rest) := by
  obtain ⟨h, e⟩ | ⟨c, rest, h, e⟩ := s.inRead_cases
  · exact .inl ⟨h, by simp [inputFromRead, e]⟩
  · exact .inr ⟨c, rest, h, by simp [inputFromRead, e]⟩

end Sys2Proof.Machine
end

