-- ==== Sys2Proof/Laws/Step.lean ====
section
/-! SUPPORT. What a step can be, said once: its four cases, and what a fetch leaves alone. -/

namespace Sys2Proof.Machine

/-- Everything a fetch does (R78): a `MemRead` at pc and the increment. -/
theorem State.fetch_eq (s : State) : s.fetch = ((s.memRead s.pc).1, (s.memRead s.pc).2.setPc (s.pc + 1)) := rfl

/-- A step with a next state was taken by a RUNNING machine (R77), and after the host's turn it was the stop, the
decoded instruction, or the rest of a waiting GETC or IN (R77, R80, R112). -/
theorem step_cases {s t : State} (h : step s = .next t) :
    s.run = .running ∧
    ((s.hostTurn.stop = true ∧ t = s.hostTurn.haltWith .stopped) ∨
     (s.hostTurn.stop = false ∧ s.wait = .ready ∧ exec (decode s.hostTurn.fetch.1) s.hostTurn.fetch.2 = .next t) ∨
     (s.hostTurn.stop = false ∧ s.wait = .getc ∧ t = serviceGetc (s.hostTurn.setWait .ready)) ∨
     (s.hostTurn.stop = false ∧ s.wait = .input ∧ t = (inputFromRead (s.hostTurn.setWait .ready)).state)) := by
  simp only [step, machineStep] at h
  cases hr : s.run with
  | halted r => rw [hr] at h; cases h
  | running =>
    rw [hr] at h
    refine ⟨rfl, ?_⟩
    by_cases hs : s.hostTurn.stop = true
    · cases hw : s.wait <;> rw [hw] at h <;> simp only [cycle, waitCycle, hs, if_true] at h <;> cases h <;>
        exact .inl ⟨hs, rfl⟩
    · have hs' := Bool.eq_false_of_not_eq_true hs
      cases hw : s.wait <;> rw [hw] at h
      · simp only [cycle, if_neg hs] at h
        exact .inr (.inl ⟨hs', rfl, h⟩)
      · simp only [waitCycle, if_neg hs] at h
        split at h <;> cases h
        exact .inr (.inr (.inl ⟨hs', rfl, rfl⟩))
      · simp only [waitCycle, if_neg hs] at h
        split at h <;> cases h
        exact .inr (.inr (.inr ⟨hs', rfl, rfl⟩))

end Sys2Proof.Machine
end

