-- ==== Sys2Proof/Tests/Slice0.lean ====
section
/-! SUPPORT. The model's own tests. Every expected result is a vector of spec/95_test_vectors.md, named in the test's
comment, or worked by hand from the rule named there. -/

namespace Sys2Proof.Tests

open Sys2Proof.Machine

/-! ## WellFormed: the ill-formed terms are refused -/

/-- The bare TRAP row is no decoded form (log 11). -/
theorem test_wellFormed_refuses_bare_trap : (Instr.trap 0#4 0x25#8).wellFormed = false := by decide

/-- A service vector is no undefined vector (R104, R111). -/
theorem test_wellFormed_refuses_service_vectors :
    (Instr.trapUndefined 0#4 0x20#8).wellFormed = false ∧ (Instr.trapUndefined 15#4 0x25#8).wellFormed = false := by
  decide

/-! ## Decoding: for each constructor a word written out from its format in R61 -/

/-- 0000 010 111111101 (B3). -/
theorem test_decode_br : decode 0x05FD#16 = .br false true false 0x1FD#9 := by decide

/-- 0001 010 000 0 00 001 (R61, RR). -/
theorem test_decode_addReg : decode 0x1401#16 = .addReg 2 0 1 := by decide

/-- 0001 000 000 1 00101 (S3). -/
theorem test_decode_addImm : decode 0x1025#16 = .addImm 0 0 5#5 := by decide

/-- 0010 000 000000001 (S1). -/
theorem test_decode_ld : decode 0x2001#16 = .ld 0 1#9 := by decide

/-- 0011 001 000000000 (M17). -/
theorem test_decode_st : decode 0x3200#16 = .st 1 0#9 := by decide

/-- 0100 0 11 011 000000, ignored bits set (S-6). -/
theorem test_decode_jsrr : decode 0x46C0#16 = .jsrr 3 := by decide

/-- 0100 1 10000000000 (S-2). -/
theorem test_decode_jsr : decode 0x4C00#16 = .jsr 0x400#11 := by decide

/-- 0101 011 010 0 11 001, ignored bits set (R61, R72). -/
theorem test_decode_andReg : decode 0x5699#16 = .andReg 3 2 1 := by decide

/-- 0101 001 001 1 00000 (P1). -/
theorem test_decode_andImm : decode 0x5260#16 = .andImm 1 1 0#5 := by decide

/-- 0110 001 010 111111 (R61, B6). -/
theorem test_decode_ldr : decode 0x62BF#16 = .ldr 1 2 0x3F#6 := by decide

/-- 0111 001 010 000100 (M19). -/
theorem test_decode_str : decode 0x7284#16 = .str 1 2 4#6 := by decide

/-- 1000 111111111111 (F3). -/
theorem test_decode_opcode8 : decode 0x8FFF#16 = .opcode8 0xFFF#12 := by decide

/-- 1001 100 011 111111 (P3). -/
theorem test_decode_notReg : decode 0x98FF#16 = .notReg 4 3 := by decide

/-- 1010 001 000000010 (M22). -/
theorem test_decode_ldi : decode 0xA202#16 = .ldi 1 2#9 := by decide

/-- 1011 000 000000011 (M18). -/
theorem test_decode_sti : decode 0xB003#16 = .sti 0 3#9 := by decide

/-- 1100 111 011 111111, ignored bits set (J3). -/
theorem test_decode_jmp : decode 0xCEFF#16 = .jmp 3 := by decide

/-- 1101 111111111111 (F2). -/
theorem test_decode_opcode13 : decode 0xDFFF#16 = .opcode13 0xFFF#12 := by decide

/-- 1110 000 111111111 (M12). -/
theorem test_decode_lea : decode 0xE1FF#16 = .lea 0 0x1FF#9 := by decide

/-- 1111 0000 00100000 (T1). -/
theorem test_decode_trapGetc : decode 0xF020#16 = .trapGetc := by decide

/-- 1111 0000 00100001 (T6). -/
theorem test_decode_trapOut : decode 0xF021#16 = .trapOut := by decide

/-- 1111 0000 00100010 (T8). -/
theorem test_decode_trapPuts : decode 0xF022#16 = .trapPuts := by decide

/-- 1111 0000 00100011 (T13). -/
theorem test_decode_trapIn : decode 0xF023#16 = .trapIn := by decide

/-- 1111 0000 00100100 (T15). -/
theorem test_decode_trapPutsp : decode 0xF024#16 = .trapPutsp := by decide

/-- 1111 1111 00100101, ignored bits set (T20). -/
theorem test_decode_trapHalt : decode 0xFF25#16 = .trapHalt := by decide

/-- 1111 0000 00100110 (T21). -/
theorem test_decode_trapUndefined : decode 0xF026#16 = .trapUndefined 0#4 0x26#8 := by decide

/-- A vector below and one above the services (T22, T23). -/
theorem test_decode_other_vectors :
    decode 0xF000#16 = .trapUndefined 0#4 0#8 ∧ decode 0xF0FF#16 = .trapUndefined 0#4 0xFF#8 := by decide

/-- A word and a width of the opcode table; no other width is an instruction (R59). -/
theorem test_decodeTableWord :
    decodeTableWord 16 0x1025 = some (.addImm 0 0 5#5) ∧ decodeTableWord 8 0x25 = none ∧
      decodeTableWord 16 0x11025 = none := by decide

/-- The encoder's words are the words of the vectors, bit for bit (S3, M19, P3, S-2). -/
theorem test_encode :
    encode (.addImm 0 0 5#5) = 0x1025#16 ∧ encode (.str 1 2 4#6) = 0x7284#16 ∧ encode (.notReg 4 3) = 0x98FF#16 ∧
      encode (.jsr 0x400#11) = 0x4C00#16 ∧ encode (.trapUndefined 5#4 0x26#8) = 0xF526#16 := by decide

/-! ## Effects: one step -/

/-- After reset, with registers and words set, characters typed ahead, and the word `w` at `a`, where pc points. -/
def at' (a w : Word) (regs : List (Reg × Word)) (mem : List (Word × Word)) (inq : List Byte) : State :=
  let s := regs.foldl (fun s c => s.writeReg c.1 c.2) (State.resetWith defaultConfig inq)
  ((mem.foldl (fun s c => s.store c.1 c.2) s).store a w).setPc a

/-- What `f` sees in the next state, if there is one. -/
def after {α : Type} (f : State → α) (o : Host.Outcome State Fault Refusal) : Option α :=
  match o with
  | .next t => some (f t)
  | .fault _ => none
  | .refused _ => none

/-- What `f` sees after one step. -/
def stepped {α : Type} (s : State) (f : State → α) : Option α := after f (step s)

/-- `s` with the flag set. -/
def flag (c : Cond) (s : State) : State := { s with cond := c }

/-- `s` whose output call of index `k` fails. -/
def failing (k : Nat) (s : State) : State := { s with outFailAt := some k }

/-- 0x7FFF + 1 (R85, R82; 0x1401). -/
theorem test_add_wraps_to_neg :
    stepped (at' 0x3000#16 0x1401#16 [(0, 0x7FFF#16), (1, 1#16)] [] []) (fun t => (t.reg 2, t.cond)) = some (0x8000#16, .neg) := by decide

/-- 0xFFFF + 0xFFFF into the source, 0x1000 `ADD R0,R0,R0` (R85). -/
theorem test_add_same_register :
    stepped (at' 0x3000#16 0x1000#16 [(0, 0xFFFF#16)] [] []) (fun t => (t.reg 0, t.cond)) = some (0xFFFE#16, .neg) := by decide

/-- S3's first instruction. -/
theorem test_add_imm :
    stepped (at' 0x3000#16 0x1025#16 [] [] []) (fun t => (t.reg 0, t.cond, t.pc)) = some (5#16, .pos, 0x3001#16) := by decide

/-- 0x103F `ADD R0,R0,#-1` from 1 (P1's last pass). -/
theorem test_add_imm_negative :
    stepped (at' 0x3000#16 0x103F#16 [(0, 1#16)] [] []) (fun t => (t.reg 0, t.cond)) = some (0#16, .zero) := by decide

/-- 0x5691, `AND R3,R2,R1` with bits 4:3 = 10 (R87, R72). -/
theorem test_and_reg :
    stepped (at' 0x3000#16 0x5691#16 [(2, 0xFF0F#16), (1, 0x8F33#16)] [] []) (fun t => (t.reg 3, t.cond)) = some (0x8F03#16, .neg) := by decide

/-- 0x5A70 `AND R5,R1,#-16`: the mask is 0xFFF0 and applies to the value (R88, C1). -/
theorem test_and_imm_masks_value :
    stepped (at' 0x3000#16 0x5A70#16 [(1, 0x123F#16)] [] []) (fun t => (t.reg 5, t.cond)) = some (0x1230#16, .pos) := by decide

/-- P3's NOT. -/
theorem test_not :
    stepped (at' 0x3004#16 0x98FF#16 [(3, 0xFFF5#16)] [] []) (fun t => (t.reg 4, t.cond)) = some (0x000A#16, .pos) := by decide

/-- 0x903F `NOT R0,R0` of 0xFFFF (R89, R82). -/
theorem test_not_zero :
    stepped (at' 0x3000#16 0x903F#16 [(0, 0xFFFF#16)] [] []) (fun t => (t.reg 0, t.cond)) = some (0#16, .zero) := by decide

/-- S1, with a value of bit 15 set. -/
theorem test_ld :
    stepped (at' 0x3000#16 0x2001#16 [] [(0x3002#16, 0x8001#16)] []) (fun t => (t.reg 0, t.cond)) = some (0x8001#16, .neg) := by decide

/-- LD of KBSR takes the character (R91, R39, R40; 0x2000 at 0xFDFF). -/
theorem test_ld_polls :
    stepped (at' 0xFDFF#16 0x2000#16 [] [] [0x41#8]) (fun t => (t.reg 0, t.stored 0xFE02#16, t.inq)) = some (0x8000#16, 0x41#16, []) := by decide

/-- P3's LDI. -/
theorem test_ldi :
    stepped (at' 0x3001#16 0xA407#16 [] [(0x3009#16, 0x3010#16), (0x3010#16, 0xFFF0#16)] []) (fun t => (t.reg 2, t.cond)) = some (0xFFF0#16, .neg) := by decide

/-- M22's first LDI. -/
theorem test_ldi_polls :
    stepped (at' 0x3000#16 0xA202#16 [] [(0x3003#16, 0xFE00#16)] [0x61#8, 0x62#8]) (fun t => (t.reg 1, t.stored 0xFE02#16, t.inq)) = some (0x8000#16, 0x61#16, [0x62#8]) := by decide

/-- 0x64BF `LDR R2,R2,#-1`: the base is read before R2 is written (R93). -/
theorem test_ldr_base_is_destination :
    stepped (at' 0x3000#16 0x64BF#16 [(2, 0x4000#16)] [(0x3FFF#16, 7#16)] []) (fun t => (t.reg 2, t.cond)) = some (7#16, .pos) := by decide

/-- 0x6041 `LDR R0,R1,#1` from 0xFFFF (R38). -/
theorem test_ldr_wraps :
    stepped (at' 0x3000#16 0x6041#16 [(1, 0xFFFF#16)] [(0#16, 0x1234#16)] []) (fun t => t.reg 0) = some 0x1234#16 := by decide

/-- M13. -/
theorem test_lea :
    stepped (at' 0x7FFF#16 0xE200#16 [] [] []) (fun t => (t.reg 1, t.cond)) = some (0x8000#16, .neg) := by decide

/-- M15. -/
theorem test_lea_does_not_poll :
    stepped (at' 0xFDFF#16 0xE000#16 [] [] [0x41#8]) (fun t => (t.reg 0, t.cond, t.inq)) = some (0xFE00#16, .neg, [0x41#8]) := by decide

/-- M16. -/
theorem test_st :
    stepped (flag .neg (at' 0x3000#16 0x3002#16 [(0, 0x1234#16)] [] [])) (fun t => (t.stored 0x3003#16, t.cond)) = some (0x1234#16, .neg) := by decide

/-- M21's store. -/
theorem test_st_to_kbsr :
    stepped (at' 0xFDFF#16 0x3000#16 [(0, 0x1234#16)] [] []) (fun t => (t.stored 0xFE00#16, (t.memRead 0xFE00#16).1)) = some (0x1234#16, 0#16) := by decide

/-- M18. -/
theorem test_sti :
    stepped (at' 0x3000#16 0xB003#16 [(0, 0xAA#16)] [(0x3004#16, 0x5000#16)] []) (fun t => (t.stored 0x5000#16, t.cond)) = some (0xAA#16, .zero) := by decide

/-- M19. -/
theorem test_str :
    stepped (at' 0x3000#16 0x7284#16 [(1, 0xBEEF#16), (2, 0x4000#16)] [] []) (fun t => (t.stored 0x4004#16, t.mem.length)) = some (0xBEEF#16, 2) := by decide

/-- M20. -/
theorem test_str_same_register :
    stepped (at' 0x3000#16 0x74A0#16 [(2, 0x10#16)] [] []) (fun t => t.stored 0xFFF0#16) = some 0x10#16 := by decide

/-- B3. -/
theorem test_br_taken :
    stepped (at' 0x3005#16 0x05FD#16 [] [] []) (fun t => t.pc) = some 0x3003#16 := by decide

/-- B4. -/
theorem test_br_not_taken :
    stepped (flag .pos (at' 0x3005#16 0x05FD#16 [] [] [])) (fun t => t.pc) = some 0x3006#16 := by decide

/-- J3: every ignored bit set. -/
theorem test_jmp :
    stepped (at' 0x3000#16 0xCEFF#16 [(3, 0x1234#16)] [] []) (fun t => (t.pc, t.reg 7)) = some (0x1234#16, 0#16) := by decide

/-- S-2. -/
theorem test_jsr :
    stepped (at' 0x3000#16 0x4C00#16 [] [] []) (fun t => (t.reg 7, t.pc)) = some (0x3001#16, 0x2C01#16) := by decide

/-- S-3. -/
theorem test_jsr_wraps :
    stepped (at' 0xFF00#16 0x4BFF#16 [] [] []) (fun t => (t.reg 7, t.pc)) = some (0xFF01#16, 0x300#16) := by decide

/-- S-4. -/
theorem test_jsrr :
    stepped (at' 0x3000#16 0x40C0#16 [(3, 0x5000#16)] [] []) (fun t => (t.reg 7, t.pc)) = some (0x3001#16, 0x5000#16) := by decide

/-- S-5. -/
theorem test_jsrr_r7_falls_through :
    stepped (at' 0x3000#16 0x41C0#16 [(7, 0x6000#16)] [] []) (fun t => (t.reg 7, t.pc)) = some (0x3001#16, 0x3001#16) := by decide

/-- F3. -/
theorem test_opcode8 :
    stepped (at' 0x3000#16 0x8FFF#16 [] [] []) (fun t => (t.run, t.pc, t.reg 7)) = some (.halted (.invalidOpcode 0x3000#16 0x8FFF#16), 0x3001#16, 0#16) := by decide

/-- F5: the fetch at KBSR polls. -/
theorem test_opcode8_after_fetch_poll :
    stepped ({ State.resetWith defaultConfig [0x41#8] with pc := 0xFE00#16 }) (fun t => (t.run, t.stored 0xFE02#16, t.inq)) = some (.halted (.invalidOpcode 0xFE00#16 0x8000#16), 0x41#16, []) := by decide

/-- F2. -/
theorem test_opcode13 :
    stepped (at' 0x4000#16 0xDFFF#16 [] [] []) (fun t => (t.run, t.pc)) = some (.halted (.invalidOpcode 0x4000#16 0xDFFF#16), 0x4001#16) := by decide

/-- T1. -/
theorem test_getc :
    stepped (at' 0x3000#16 0xF020#16 [] [] [0x61#8]) (fun t => (t.reg 0, t.cond, t.inq, t.reg 7, t.out)) = some (0x61#16, .pos, [], 0x3001#16, []) := by decide

/-- T3. -/
theorem test_getc_is_zero_extended :
    stepped (at' 0x3000#16 0xF020#16 [] [] [0xC8#8]) (fun t => (t.reg 0, t.cond)) = some (0xC8#16, .pos) := by decide

/-- T6. -/
theorem test_out :
    stepped (at' 0x3000#16 0xF021#16 [(0, 0x1241#16)] [] []) (fun t => (t.out, t.flushed, t.reg 0, t.cond)) = some ([0x41#8], 1, 0x1241#16, .zero) := by decide

/-- T24. -/
theorem test_out_fails :
    stepped (failing 0 (at' 0x3000#16 0xF021#16 [(0, 0x41#16)] [] [])) (fun t => (t.run, t.out, t.reg 7)) = some (.halted .outputFailure, [], 0x3001#16) := by decide

/-- T8. -/
theorem test_puts :
    stepped (at' 0x3000#16 0xF022#16 [(0, 0x4000#16)] [(0x4000#16, 0x48#16), (0x4001#16, 0x69#16)] []) (fun t => t.out) = some [0x48#8, 0x69#8] := by decide

/-- T26: the read at KBSR ends the string. -/
theorem test_puts_polls :
    stepped (at' 0x3000#16 0xF022#16 [(0, 0xFDFF#16)] [(0xFDFF#16, 0x41#16), (0xFE00#16, 0x42#16)] []) (fun t => t.out) = some [0x41#8] := by decide

/-- R108 with the default prompt: R0, flags, and the echo after the prompt. -/
theorem test_in :
    stepped (at' 0x3000#16 0xF023#16 [] [] [0x35#8]) (fun t => (t.reg 0, t.cond, t.out == t.cfg.inPrompt ++ [0x35#8], t.flushed)) = some (0x35#16, .pos, true, 20) := by decide

/-- T14: the echo is call 20, after 19 bytes and a flush. -/
theorem test_in_echo_fails :
    stepped (failing 20 (at' 0x3000#16 0xF023#16 [] [] [0x35#8])) (fun t => (t.run, t.out.length, t.inq, t.reg 0, t.reg 7)) = some (.halted .outputFailure, 19, [], 0#16, 0x3001#16) := by decide

/-- T15. -/
theorem test_putsp :
    stepped (at' 0x3000#16 0xF024#16 [(0, 0x4000#16)] [(0x4000#16, 0x6241#16)] []) (fun t => t.out) = some [0x41#8, 0x62#8] := by decide

/-- T16. -/
theorem test_putsp_stops_at_zero_byte :
    stepped (at' 0x3000#16 0xF024#16 [(0, 0x4000#16)] [(0x4000#16, 0x41#16), (0x4001#16, 0x42#16)] []) (fun t => t.out) = some [0x41#8] := by decide

/-- T19, with HALT and a line feed as the notice. -/
theorem test_halt :
    stepped (flag .neg (at' 0x3000#16 0xF025#16 [(7, 0x1111#16)] [] [])) (fun t => (t.run, t.out, t.reg 7, t.cond)) = some (.halted .halt, [0x48#8, 0x41#8, 0x4C#8, 0x54#8, 0x0A#8], 0x3001#16, .neg) := by decide

/-- T25: call 0 is the first flush, call 1 the notice's first byte. -/
theorem test_halt_notice_fails :
    stepped (failing 1 (at' 0x3000#16 0xF025#16 [] [] [])) (fun t => (t.run, t.out)) = some (.halted .outputFailure, []) := by decide

/-- T21. -/
theorem test_undefined_vector :
    stepped (at' 0x3000#16 0xF026#16 [] [] []) (fun t => (t.run, t.reg 7)) = some (.halted (.invalidOpcode 0x3000#16 0xF026#16), 0x3001#16) := by decide

/-- The bare TRAP row runs the service of its vector (R103; T6). -/
theorem test_trap_of_any_vector :
    after (fun t => (t.out, t.reg 7)) (exec (.trap 0xF#4 0x21#8) (at' 0x3001#16 0#16 [(0, 0x1241#16)] [] [])) = some ([0x41#8], 0x3001#16) := by decide

/-! ## Waiting, stopping, loading -/

/-- R112: GETC with nothing there. -/
theorem test_getc_waits :
    stepped (at' 0x3000#16 0xF020#16 [] [] []) (fun t => (t.wait, t.run, t.reg 7)) = some (.getc, .running, 0x3001#16) := by decide

/-- GETC waiting at 0x3001, with the host's coming turns. -/
def waiting (w : Wait) (host : List HostMove) (inq : List Byte) : State :=
  { at' 0x3001#16 0#16 [] [] inq with wait := w, host := host }

/-- T5: the host appends 0x7A. -/
theorem test_getc_resumes :
    stepped (waiting .getc [⟨[0x7A#8], false, 0⟩] []) (fun t => (t.reg 0, t.cond, t.wait, t.pc)) = some (0x7A#16, .pos, .ready, 0x3001#16) := by decide

/-- T4: the host sets stop. -/
theorem test_getc_stopped :
    stepped (waiting .getc [⟨[], true, 0⟩] []) (fun t => (t.run, t.wait, t.reg 0)) = some (.halted .stopped, .ready, 0#16) := by decide

/-- The model's choice where both are there (log 17). -/
theorem test_stop_wins_over_character :
    stepped (waiting .getc [⟨[0x7A#8], true, 0⟩] []) (fun t => (t.run, t.inq, t.reg 0)) = some (.halted .stopped, [0x7A#8], 0#16) := by decide

/-- R112, R113: the character is consumed, R0 is not written. -/
theorem test_resumed_in_echo_fails :
    stepped (failing 0 (waiting .input [] [0x7A#8])) (fun t => (t.run, t.inq, t.out, t.reg 0, t.wait)) = some (.halted .outputFailure, [], [], 0#16, .ready) := by decide

/-- R129: the host makes bytes of out visible without a Flush, and no more than there are. -/
theorem test_host_shows_output :
    [0, 1, 5].map (fun k => (State.hostTurn { State.reset with out := [0x41#8, 0x42#8], host := [⟨[], false, k⟩] }).flushed) = [0, 1, 2] := by decide

/-- F7. -/
theorem test_stop_wins_over_fetch :
    stepped ({ at' 0x3000#16 0x8000#16 [] [] [] with stop := true }) (fun t => (t.run, t.pc)) = some (.halted .stopped, 0x3000#16) := by decide

/-- R30, R77. -/
theorem test_halted_is_terminal :
    stepped { State.reset with run := .halted .halt } (fun t => t.pc) = none := by decide

/-- L2: the third word is dropped. -/
theorem test_load_image :
    (loadImage ⟨0xFFFE#16, [0xA#16, 0xB#16, 0xC#16]⟩ State.reset).mem = [(0xFFFE, 0xA#16), (0xFFFF, 0xB#16)] := by decide

/-- L3. -/
theorem test_image_file :
    Image.ofBytes [0x30#8, 0#8, 0x10#8, 0x25#8, 0xF0#8, 0x25#8] = some ⟨0x3000#16, [0x1025#16, 0xF025#16]⟩ := by decide

/-- The host's placement runs as the first instruction (log 16; S3). -/
theorem test_fetch_word_runs_first :
    stepped (State.reset.withFetchWord 16 0x1025) (fun t => (t.reg 0, t.pc)) = some (5#16, 0x3001#16) := by decide

/-! ## Witnesses: for each statement with hypotheses, states and operands that meet them -/


theorem witness_HaltedOrStoppedRunsNothing :
    (∃ s : State, s.run = .halted .outputFailure) ∧
    (∃ s : State, s.run = .running ∧ s.wait = .ready ∧ s.hostTurn.stop = true) ∧
    (∃ s : State, s.run = .running ∧ s.wait = .input ∧ s.hostTurn.stop = true) :=
  ⟨⟨{ State.reset with run := .halted .outputFailure }, rfl⟩, ⟨{ State.reset with stop := true }, rfl, rfl, rfl⟩,
    ⟨waiting .input [⟨[], true, 0⟩] [], rfl, rfl, rfl⟩⟩

theorem witness_StepRunsDecodedInstruction :
    ∃ s : State, s.run = .running ∧ s.wait = .ready ∧ s.hostTurn.stop = false ∧
      decode (s.hostTurn.memRead s.pc).1 = .addImm 0 0 5#5 :=
  ⟨at' 0x3000#16 0x1025#16 [] [] [], by decide⟩

/-- Each of the four ends is reached by a step. -/
theorem witness_RunEndsOnlyByItsCauses :
    stepped (at' 0x3000#16 0xF025#16 [] [] []) (·.run) = some (.halted .halt) ∧
    stepped (at' 0x3000#16 0x8000#16 [] [] []) (·.run) = some (.halted (.invalidOpcode 0x3000#16 0x8000#16)) ∧
    stepped (failing 0 (at' 0x3000#16 0xF021#16 [] [] [])) (·.run) = some (.halted .outputFailure) ∧
    stepped { State.reset with stop := true } (·.run) = some (.halted .stopped) := by decide

/-- A word under each mask of the table, and the vectors next to the services. -/
theorem witness_DecodeFollowsOpcodeTable :
    0x05FD#16 &&& 0xF000#16 = 0x0000#16 ∧ 0x1401#16 &&& 0xF020#16 = 0x1000#16 ∧ 0x1025#16 &&& 0xF020#16 = 0x1020#16 ∧
    0x2001#16 &&& 0xF000#16 = 0x2000#16 ∧ 0x3200#16 &&& 0xF000#16 = 0x3000#16 ∧ 0x46C0#16 &&& 0xF800#16 = 0x4000#16 ∧
    0x4C00#16 &&& 0xF800#16 = 0x4800#16 ∧ 0x5699#16 &&& 0xF020#16 = 0x5000#16 ∧ 0x5260#16 &&& 0xF020#16 = 0x5020#16 ∧
    0x62BF#16 &&& 0xF000#16 = 0x6000#16 ∧ 0x7284#16 &&& 0xF000#16 = 0x7000#16 ∧ 0x8FFF#16 &&& 0xF000#16 = 0x8000#16 ∧
    0x98FF#16 &&& 0xF000#16 = 0x9000#16 ∧ 0xA202#16 &&& 0xF000#16 = 0xA000#16 ∧ 0xB003#16 &&& 0xF000#16 = 0xB000#16 ∧
    0xCEFF#16 &&& 0xF000#16 = 0xC000#16 ∧ 0xDFFF#16 &&& 0xF000#16 = 0xD000#16 ∧ 0xE1FF#16 &&& 0xF000#16 = 0xE000#16 ∧
    0xF020#16 &&& 0xF0FF#16 = 0xF020#16 ∧ 0xF121#16 &&& 0xF0FF#16 = 0xF021#16 ∧ 0xF222#16 &&& 0xF0FF#16 = 0xF022#16 ∧
    0xF323#16 &&& 0xF0FF#16 = 0xF023#16 ∧ 0xF424#16 &&& 0xF0FF#16 = 0xF024#16 ∧ 0xFF25#16 &&& 0xF0FF#16 = 0xF025#16 ∧
    (0xF01F#16 &&& 0xF000#16 = 0xF000#16 ∧ (0xF01F#16 &&& 0x00FF#16).toNat < 0x20) ∧
    (0xF026#16 &&& 0xF000#16 = 0xF000#16 ∧ 0x25 < (0xF026#16 &&& 0x00FF#16).toNat) := by decide

theorem witness_DecodeEncodeRoundTrip :
    (Instr.str 1 2 4#6).wellFormed = true ∧ (Instr.trapUndefined 5#4 0x26#8).wellFormed = true := by decide

theorem witness_EveryWordDecodesWellFormed :
    isInvalid (decode 0x8FFF#16) = true ∧ isInvalid (decode 0xDFFF#16) = true ∧ isInvalid (decode 0xF526#16) = true := by
  decide

/-- Both signs at the smallest and the largest width. -/
theorem witness_SignExtensionValue :
    2 ^ (1 - 1) ≤ (1#16).toNat % 2 ^ 1 ∧ (0#16).toNat % 2 ^ 1 < 2 ^ (1 - 1) ∧
    2 ^ (16 - 1) ≤ (0x8000#16).toNat % 2 ^ 16 ∧ (0x7FFF#16).toNat % 2 ^ 16 < 2 ^ (16 - 1) := by decide

/-- The three classes of R82 at their boundaries. -/
theorem witness_SetccFollowsValue :
    FlagOf 0#16 .zero ∧ FlagOf 1#16 .pos ∧ FlagOf 0x7FFF#16 .pos ∧ FlagOf 0x8000#16 .neg ∧ FlagOf 0xFFFF#16 .neg := by
  unfold FlagOf; decide

theorem witness_LoadPcRelative : plusSigned State.reset.pc 1#9 ≠ State.reset.cfg.kbsrAddr := by decide

theorem witness_LoadIndirect :
    plusSigned State.reset.pc 1#9 ≠ State.reset.cfg.kbsrAddr ∧
      State.reset.stored (plusSigned State.reset.pc 1#9) ≠ State.reset.cfg.kbsrAddr := by decide

theorem witness_LoadBaseOffset : plusSigned (State.reset.reg 2) 0x3F#6 ≠ State.reset.cfg.kbsrAddr := by decide

theorem witness_StoreIndirect : plusSigned State.reset.pc 0x1FF#9 ≠ State.reset.cfg.kbsrAddr := by decide

/-- A taken and a not taken branch under each flag. -/
theorem witness_BranchOnFlags :
    (∀ c : Cond, ∃ s : State, s.cond = c) ∧
    (∀ c : Cond, ∃ n z p : Bool, (c = .neg ∧ n = true) ∨ (c = .zero ∧ z = true) ∨ (c = .pos ∧ p = true)) ∧
    (∀ c : Cond, ∃ n z p : Bool, (c = .neg → n = false) ∧ (c = .zero → z = false) ∧ (c = .pos → p = false)) :=
  ⟨fun c => ⟨flag c State.reset, rfl⟩, fun c => ⟨true, true, true, by cases c <;> decide⟩,
    fun c => ⟨false, false, false, by cases c <;> decide⟩⟩

theorem witness_JumpSubroutineRegister : (3 : Reg) ≠ 7 ∧ (7 : Reg) = 7 := by decide

/-- Every vector the clauses name, and the vectors next to them. -/
theorem witness_TrapDispatchesOnVector :
    (0x20#8).toNat = 0x20 ∧ (0x21#8).toNat = 0x21 ∧ (0x22#8).toNat = 0x22 ∧ (0x23#8).toNat = 0x23 ∧
    (0x24#8).toNat = 0x24 ∧ (0x25#8).toNat = 0x25 ∧ (0x1F#8).toNat < 0x20 ∧ 0x25 < (0x26#8).toNat := by decide

theorem witness_TrapLinksAndFallsThrough :
    after (·.pc) (exec (.trap 0#4 0x25#8) State.reset) = some 0x3000#16 ∧
    (0x22#8 = 0x22#8 ∨ 0x22#8 = 0x24#8 → State.reset.cfg.trapReadIntercepts = true) := by decide

theorem witness_GetcReadsCharacter : ∃ (s : State) (c : Byte) (rest : List Byte), s.inq = c :: rest :=
  ⟨State.resetWith defaultConfig [0x61#8], 0x61#8, [], rfl⟩

theorem witness_GetcAndInWaitForInput :
    ∃ s : State, s.inq = [] ∧ OutputGood (s.cfg.inPrompt.length + 1) s :=
  ⟨failing 20 State.reset, rfl, .inr ⟨20, rfl, by decide⟩⟩

theorem witness_WaitingServiceResumes :
    (∃ s : State, s.run = .running ∧ s.wait = .getc ∧ s.hostTurn.stop = false ∧ s.hostTurn.inq = [0x7A#8]) ∧
    (∃ s : State, s.run = .running ∧ s.wait = .input ∧ s.hostTurn.stop = false ∧ s.hostTurn.inq = [0x7A#8] ∧
      OutputGood 2 s) ∧
    (∀ k, k < 2 → ∃ s : State, s.run = .running ∧ s.wait = .input ∧ s.hostTurn.stop = false ∧
      s.hostTurn.inq = [0x7A#8] ∧ s.outFailAt = some k) ∧
    (∃ s : State, s.run = .running ∧ s.wait ≠ .ready ∧ s.hostTurn.stop = false ∧ s.hostTurn.inq = [] ∧ s.host = []) ∧
    (∃ s : State, s.run = .running ∧ s.wait ≠ .ready ∧ s.hostTurn.stop = false ∧ s.hostTurn.inq = [] ∧ s.host ≠ []) :=
  ⟨⟨waiting .getc [⟨[0x7A#8], false, 0⟩] [], rfl, rfl, rfl, rfl⟩,
    ⟨failing 2 (waiting .input [] [0x7A#8]), rfl, rfl, rfl, rfl, .inr ⟨2, rfl, by decide⟩⟩,
    fun k _ => ⟨failing k (waiting .input [] [0x7A#8]), rfl, rfl, rfl, rfl, rfl⟩,
    ⟨waiting .getc [] [], rfl, by decide, rfl, rfl, rfl⟩,
    ⟨waiting .getc [⟨[], false, 0⟩] [], rfl, by decide, rfl, rfl, by decide⟩⟩

/-- Success, and a failure of each of the two calls. -/
theorem witness_OutWritesLowByte :
    OutputGood 2 (failing 2 State.reset) ∧ (failing 0 State.reset).outFailAt = some 0 ∧
      (failing 1 State.reset).outFailAt = some 1 := ⟨.inr ⟨2, rfl, by decide⟩, rfl, rfl⟩

/-- "Hi" at 0x4000 for PUTS (T8). -/
def puts' : State := at' 0x3000#16 0xF022#16 [(0, 0x4000#16)] [(0x4000#16, 0x48#16), (0x4001#16, 0x69#16)] []

theorem witness_PutsWritesString :
    (∀ j, j < 2 → puts'.stored (puts'.reg 0 + BitVec.ofNat 16 j) ≠ 0#16) ∧
    puts'.stored (puts'.reg 0 + BitVec.ofNat 16 2) = 0#16 ∧
    (puts'.cfg.trapReadIntercepts = true → ∀ j, j ≤ 2 → puts'.reg 0 + BitVec.ofNat 16 j ≠ puts'.cfg.kbsrAddr) ∧
    OutputGood (2 + 1) puts' :=
  ⟨by decide, by decide, by decide, .inl rfl⟩

/-- "Abc" and "Ab" at 0x4000 for PUTSP (T18, T15): the string ends in a high byte, and in a low byte. -/
def putsp' (last : Word) : State :=
  at' 0x3000#16 0xF024#16 [(0, 0x4000#16)] [(0x4000#16, 0x6241#16), (0x4001#16, last)] []

theorem witness_PutspWritesPackedString :
    ∀ last : Word, last = 0x0063#16 ∨ last = 0x6300#16 →
      (∀ j, j < 1 → loByte ((putsp' last).stored ((putsp' last).reg 0 + BitVec.ofNat 16 j)) ≠ 0#8 ∧
        hiByte ((putsp' last).stored ((putsp' last).reg 0 + BitVec.ofNat 16 j)) ≠ 0#8) ∧
      (loByte ((putsp' last).stored ((putsp' last).reg 0 + BitVec.ofNat 16 1)) = 0#8 ∨
        hiByte ((putsp' last).stored ((putsp' last).reg 0 + BitVec.ofNat 16 1)) = 0#8) ∧
      ((putsp' last).cfg.trapReadIntercepts = true →
        ∀ j, j ≤ 1 → (putsp' last).reg 0 + BitVec.ofNat 16 j ≠ (putsp' last).cfg.kbsrAddr) ∧
      OutputGood (2 * 1 + 2) (putsp' last) := by
  rintro last (rfl | rfl)
  · exact ⟨by decide, by decide, by decide, .inl rfl⟩
  · exact ⟨by decide, by decide, by decide, .inl rfl⟩

/-- Every word of memory 0x4141, and string reads not intercepted. -/
def full : State :=
  { State.resetWith { defaultConfig with trapReadIntercepts := false } [] with
    mem := Memory.writeWords (List.replicate 65536 0x4141#16) 0 [] }

theorem full_stored (a : Word) : full.stored a = 0x4141#16 := by
  have h : a.toNat < 65536 := a.isLt
  unfold State.stored
  simp only [full]
  rw [Memory.read_writeWords,
    List.length_replicate, if_pos ⟨Nat.zero_le _, h⟩, List.getD_eq_getElem?_getD, List.getElem?_replicate, Nat.sub_zero, if_pos h]
  rfl

theorem witness_UnterminatedStringsHang :
    full.cfg.trapReadIntercepts = false ∧ full.outFailAt = none ∧ (∀ a : Word, full.stored a ≠ 0#16) ∧
    (∀ a : Word, loByte (full.stored a) ≠ 0#8 ∧ hiByte (full.stored a) ≠ 0#8) :=
  ⟨rfl, rfl, fun a => by rw [full_stored]; decide, fun a => by rw [full_stored]; decide⟩

/-- A short string and an endless one: a loop with an end, and a state of UnterminatedStringsHang. -/
theorem witness_PutsRefinesItsLoop :
    after (·.out) (exec .trapPuts puts') = some [0x48#8, 0x69#8] ∧ full.outFailAt = none := ⟨by decide, rfl⟩

theorem witness_PutspRefinesItsLoop :
    after (·.out) (exec .trapPutsp (putsp' 0x63#16)) = some [0x41#8, 0x62#8, 0x63#8] ∧ full.outFailAt = none :=
  ⟨by decide, rfl⟩

/-- Success, a failure of the first prompt byte and of the flush after the prompt, and of each call of the echo. -/
theorem witness_InPromptsAndEchoes :
    (∃ s : State, s.inq = [0x35#8] ∧ OutputGood (s.cfg.inPrompt.length + 3) s) ∧
    (∃ s : State, s.outFailAt = some 0 ∧ 0 ≤ s.cfg.inPrompt.length ∧ s.inq = []) ∧
    (∃ s : State, s.outFailAt = some 19 ∧ 19 ≤ s.cfg.inPrompt.length ∧ s.inq = [0x35#8]) ∧
    (∀ j, j < 2 → ∃ s : State, s.inq = [0x35#8] ∧ s.outFailAt = some (s.cfg.inPrompt.length + 1 + j)) :=
  ⟨⟨failing 22 (State.resetWith defaultConfig [0x35#8]), rfl, .inr ⟨22, rfl, by decide⟩⟩,
    ⟨failing 0 State.reset, rfl, by decide, rfl⟩, ⟨failing 19 (State.resetWith defaultConfig [0x35#8]), rfl, by decide, rfl⟩,
    fun j _ => ⟨failing (defaultConfig.inPrompt.length + 1 + j) (State.resetWith defaultConfig [0x35#8]), rfl, rfl⟩⟩

/-- Success, and a failure at the first and at the last of HALT's calls. -/
theorem witness_HaltEndsRun :
    OutputGood (State.reset.cfg.haltNotice.length + 2) State.reset ∧
    ((failing 0 State.reset).outFailAt = some 0 ∧ 0 < (failing 0 State.reset).cfg.haltNotice.length + 2) ∧
    ((failing 6 State.reset).outFailAt = some 6 ∧ 6 < (failing 6 State.reset).cfg.haltNotice.length + 2) :=
  ⟨.inl rfl, ⟨rfl, by decide⟩, ⟨rfl, by decide⟩⟩

theorem witness_UndefinedVectorHalts : (0x1F#8).toNat < 0x20 ∧ 0x25 < (0x26#8).toNat := by decide

theorem witness_OutputFailureKeepsEarlierEffects :
    State.reset.run = .running ∧ after (·.run) (exec .trapOut (failing 0 State.reset)) = some (.halted .outputFailure) ∧
      after (·.run) (exec .trapOut (failing 1 State.reset)) = some (.halted .outputFailure) := by decide

/-- Both cases of a poll. -/
theorem witness_StatusReadPolls :
    (∃ s : State, s.cfg.wf = true ∧ s.inq = [0x41#8]) ∧ (∃ s : State, s.cfg.wf = true ∧ s.inq = []) :=
  ⟨⟨State.resetWith defaultConfig [0x41#8], rfl, rfl⟩, ⟨State.reset, rfl, rfl⟩⟩

theorem witness_OtherReadsHaveNoEffect : 0xFE01#16 ≠ State.reset.cfg.kbsrAddr ∧ State.reset.cfg.wf = true := by decide

theorem witness_StoreSeenByNextFetch : 0x3001#16 ≠ State.reset.cfg.kbsrAddr := by decide

/-- A host with no turn and one with a turn, a step that consumes a character, and one that writes. -/
theorem witness_StreamsKeepOrder :
    State.reset.host = [] ∧ (waiting .getc [⟨[0x7A#8], true, 1⟩] []).host = [⟨[0x7A#8], true, 1⟩] ∧
    stepped (at' 0x3000#16 0xF020#16 [] [] [0x61#8, 0x62#8]) (·.inq) = some [0x62#8] ∧
    stepped (at' 0x3000#16 0xF021#16 [(0, 0x41#16)] [] []) (·.out) = some [0x41#8] := by decide

theorem witness_MemoryFormIsCanonical :
    Memory.wf [(3, 7#16)] = true ∧ (∀ a, a < 65536 → Memory.read [(3, 7#16)] a = Memory.read [(3, 7#16)] a) ∧
    State.reset.mem.wf = true ∧ 3#16 ≠ 4#16 := ⟨by decide, fun _ _ => rfl, by decide, by decide⟩

theorem witness_StartUpLoadsImagesInOrder : none ∈ [some (Image.mk 0x3000#16 []), none] := by decide

theorem witness_OnlyNamedRegistersWritten :
    after (·.reg 2) (exec (.addReg 2 0 1) State.reset) = some 0#16 := by decide

theorem witness_OnlyTransfersWritePc :
    after (·.pc) (exec (.st 0 1#9) State.reset) = some 0x3000#16 ∧ transfersControl (.st 0 1#9) = false := by decide

/-- An instruction that leaves the flags, one that sets them, and GETC that completes. -/
theorem witness_FlagsFollowDestination :
    State.reset.run = .running ∧ State.reset.wait = .ready ∧ flagDest (.jsr 0#11) = none ∧
    flagDest (.lea 3 0#9) = some 3 ∧ after (fun t => (t.run, t.wait)) (exec (.lea 3 0#9) State.reset) = some (.running, .ready) ∧
    flagDest .trapGetc = some 0 ∧
    after (fun t => (t.run, t.wait)) (exec .trapGetc (State.resetWith defaultConfig [0x61#8])) = some (.running, .ready) := by
  decide

theorem witness_CondReadOnlyByBranch :
    (∀ n z p off9, Instr.addReg 0 1 2 ≠ .br n z p off9) ∧
    after (·.reg 0) (exec (.addReg 0 1 2) State.reset) = some 0#16 := ⟨by simp, by decide⟩

theorem witness_OnlyStoresChangeMemory :
    after (·.pc) (exec (.ldi 1 2#9) State.reset) = some 0x3000#16 ∧ storesToMemory (.ldi 1 2#9) = false ∧
    0x3000#16 ≠ State.reset.cfg.kbsrAddr ∧ 0x3000#16 ≠ State.reset.cfg.kbdrAddr := by decide

theorem witness_InvalidOpcodeExactly :
    State.reset.run = .running ∧ isInvalid (.opcode13 5#12) = true ∧ isInvalid (.trap 1#4 0x26#8) = true ∧
    after (·.run) (exec (.trapUndefined 1#4 0x26#8) State.reset) =
      some (.halted (.invalidOpcode 0x2FFF#16 0xF126#16)) := by decide

theorem witness_InvariantAtReset : ∃ s : State, s.Inv := ⟨State.reset, rfl, Nat.le_refl _, .inl rfl⟩

theorem witness_StepKeepsInvariant :
    (failing 0 (at' 0x3000#16 0xF021#16 [] [] [])).Inv ∧
    stepped (failing 0 (at' 0x3000#16 0xF021#16 [] [] [])) (·.mem.wf) = some true :=
  ⟨⟨by decide, by decide, .inl rfl⟩, by decide⟩

end Sys2Proof.Tests
end

/-! PROOFS. Sign and zero extension in plain arithmetic (spec/00_scope.md R12). -/

namespace Sys2Proof.Machine

/-- Truncating a sign-extended field gives the field back: `sext_n` leaves bits n-1..0 as they are (R12). -/
theorem setWidth_sextField {n : Nat} (h : n ≤ 16) (f : BitVec n) : (sextField f).setWidth n = f := by
  ext i hi
  have hi16 : i < 16 := Nat.lt_of_lt_of_le hi h
  simp [sextField, BitVec.getElem_signExtend, hi, hi16]

/-- `sext_n` reads only bits n-1..0, and those it keeps (R12). -/
theorem sext_sext {n : Nat} (h : n ≤ 16) (v : Word) : sext n (sext n v) = sext n v :=
  congrArg sextField (setWidth_sextField h (v.setWidth n))

/-- The value of an extended field: bits 15..n are filled, which adds 2^16 - 2^n, exactly when its top bit is set (R12). -/
theorem sextField_toNat {n : Nat} (h : n ≤ 16) (f : BitVec n) :
    (sextField f).toNat = f.toNat + if 2 ^ (n - 1) ≤ f.toNat then 0x10000 - 2 ^ n else 0 := by
  simp [sextField, BitVec.toNat_signExtend, BitVec.toNat_setWidth_of_le h, BitVec.msb_eq_decide]

theorem sext_toNat_of_le {n : Nat} (h : n ≤ 16) {v : Word} (top : 2 ^ (n - 1) ≤ v.toNat % 2 ^ n) :
    (sext n v).toNat = v.toNat % 2 ^ n + 0x10000 - 2 ^ n := by
  have hpow : 2 ^ n ≤ 0x10000 := Nat.pow_le_pow_right (by decide) h
  rw [sext, sextField_toNat h, BitVec.toNat_setWidth, if_pos top, ← Nat.add_sub_assoc hpow]

theorem sext_toNat_of_lt {n : Nat} (h : n ≤ 16) {v : Word} (top : v.toNat % 2 ^ n < 2 ^ (n - 1)) :
    (sext n v).toNat = v.toNat % 2 ^ n := by
  rw [sext, sextField_toNat h, BitVec.toNat_setWidth, if_neg (Nat.not_le_of_lt top), Nat.add_zero]

theorem zext_toNat {n : Nat} (h : n ≤ 16) (v : Word) : (zext n v).toNat = v.toNat % 2 ^ n := by
  rw [zext, zextField, BitVec.toNat_setWidth_of_le h, BitVec.toNat_setWidth]

/-- Settles O9: the value of an extended field by its top bit, and that truncation undoes the extension. -/
theorem signExtensionValue : Obligations.SignExtensionValue := by
  intro n v _ h
  exact ⟨sext_toNat_of_le h, sext_toNat_of_lt h, sext_sext h v, rfl, zext_toNat h v⟩

end Sys2Proof.Machine

/-! PROOFS. Memory: what reads, stores and image loads change (spec/20_memory.md R39 to R42, R50). -/

namespace Sys2Proof.Machine

/-! ## Reads -/

/-- Settles O45: only the status address is intercepted, and with well-formed parameters KBDR is another address. -/
theorem otherReadsHaveNoEffect : Obligations.OtherReadsHaveNoEffect := by
  intro s
  refine ⟨fun a h => s.memRead_other h, fun hwf => s.memRead_other ?_⟩
  have distinct : s.cfg.kbsrAddr ≠ s.cfg.kbdrAddr := by simpa [Config.wf] using hwf
  exact distinct.symm

/-! ## Stores -/

@[simp] theorem State.memWrite_eq_store (s : State) (a v : Word) : s.memWrite a v = s.store a v := rfl

/-- A poll with no character there (R39, R40). -/
theorem State.pollKeyboard_of_nil {s : State} (h : s.inq = []) :
    s.pollKeyboard = s.store s.cfg.kbsrAddr 0x0000#16 := by
  simpa [h] using s.pollKeyboard_cases

/-- A poll that takes a character (R39, R40). -/
theorem State.pollKeyboard_of_cons {s : State} {c : Byte} {rest : List Byte} (h : s.inq = c :: rest) :
    s.pollKeyboard = ((s.setInq rest).store s.cfg.kbsrAddr 0x8000#16).store s.cfg.kbdrAddr (zextField c) := by
  simpa [h] using s.pollKeyboard_cases

/-- A poll writes the status word whatever it was, so no stored word after it shows an earlier store there (R42). -/
theorem State.stored_pollKeyboard_store_kbsr (s : State) (v b : Word) :
    (s.store s.cfg.kbsrAddr v).pollKeyboard.stored b = s.pollKeyboard.stored b := by
  cases h : s.inq with
  | nil =>
    rw [State.pollKeyboard_of_nil h, State.pollKeyboard_of_nil (s := s.store s.cfg.kbsrAddr v) h]
    by_cases hb : b = s.cfg.kbsrAddr <;> simp [hb]
  | cons c rest =>
    rw [State.pollKeyboard_of_cons h, State.pollKeyboard_of_cons (s := s.store s.cfg.kbsrAddr v) h]
    by_cases hb : b = s.cfg.kbsrAddr <;> simp [hb]

/-- The memory that a read of the status address leaves does not depend on what was stored there (R42). -/
theorem State.sameMemory_memRead_store_kbsr (s : State) (v : Word) :
    SameMemory (s.memRead s.cfg.kbsrAddr).2 ((s.store s.cfg.kbsrAddr v).memRead s.cfg.kbsrAddr).2 := by
  intro b
  have polls : (s.store s.cfg.kbsrAddr v).memRead s.cfg.kbsrAddr = _ :=
    State.memRead_kbsr (s.store s.cfg.kbsrAddr v)
  rw [polls, s.memRead_kbsr]
  exact s.stored_pollKeyboard_store_kbsr v b

/-- Settles O46: the words by `stored_store`, the frame field by field, and the next status read by what it leaves in
memory, which is also what it returns. -/
theorem storeIsUnconditional : Obligations.StoreIsUnconditional := by
  intro s a v
  have nextRead := s.sameMemory_memRead_store_kbsr v
  exact ⟨by simp, fun b hb => by simp [hb], fun _ _ => rfl, rfl, rfl, ⟨rfl, rfl, rfl⟩, ⟨rfl, rfl, rfl⟩,
    ⟨rfl, rfl, rfl⟩, nextRead s.cfg.kbsrAddr, nextRead⟩

/-! ## Image loads -/

/-- A word after an image is loaded. No address lies past 0xFFFF, so cutting the words off there hides none of them
(R50). -/
theorem stored_loadImage (i : Image) (s : State) (a : Word) :
    (loadImage i s).stored a =
      if i.origin.toNat ≤ a.toNat ∧ a.toNat - i.origin.toNat < i.words.length
        then i.words.getD (a.toNat - i.origin.toNat) 0#16 else s.stored a := by
  rw [State.stored, loadImage, Memory.read_writeWords, List.length_take]
  have ha : a.toNat < 65536 := a.isLt
  by_cases h : i.origin.toNat ≤ a.toNat ∧ a.toNat - i.origin.toNat < i.words.length
  · have below : a.toNat - i.origin.toNat < 65536 - i.origin.toNat := by omega
    rw [if_pos h, if_pos (by omega), List.getD_eq_getElem?_getD, List.getElem?_take_of_lt below,
      ← List.getD_eq_getElem?_getD]
  · rw [if_neg h, if_neg (by omega), State.stored]

/-- Settles O50: the words by `stored_loadImage`; the update names no field but memory. -/
theorem loadImageWritesWords : Obligations.LoadImageWritesWords := by
  intro i s a
  exact ⟨stored_loadImage i s a, fun _ _ => rfl, rfl, rfl, ⟨rfl, rfl, rfl⟩, ⟨rfl, rfl, rfl⟩, ⟨rfl, rfl, rfl⟩⟩

end Sys2Proof.Machine

/-! PROOFS. ADD, AND and NOT: the three operations, the words that decode to the instructions, and what the
instructions leave (spec/41_alu.md R84 to R89). -/

namespace Sys2Proof.Machine

/-! ## The three operations -/

theorem aluAdd_toNat (a b : Word) : (aluAdd a b).toNat = (a.toNat + b.toNat) % 2 ^ 16 := BitVec.toNat_add a b

theorem aluAnd_getLsbD (a b : Word) (i : Nat) : (aluAnd a b).getLsbD i = (a.getLsbD i && b.getLsbD i) :=
  BitVec.getLsbD_and

theorem aluNot_toNat (a : Word) : (aluNot a).toNat = 0xFFFF - a.toNat := BitVec.toNat_not

/-- Settles O11: each operation is the `BitVec` operation of its name. -/
theorem aluOperations : Obligations.AluOperations := by
  intro a b
  exact ⟨aluAdd_toNat a b, aluAnd_getLsbD a b, aluNot_toNat a⟩

/-! ## The immediate operand -/

/-- Adding the sign-extended immediate adds its signed value (R12, R86). -/
theorem aluAdd_immediate (a : Word) (imm5 : BitVec 5) : aluAdd a (immediate imm5) = plusSigned a imm5 :=
  (plusSigned_eq a imm5).symm

/-- Sign extension repeats the top bit, bit 4, in every bit above it (R12, R66). -/
theorem immediate_getLsbD (imm5 : BitVec 5) {i : Nat} (hi : i < 16) :
    (immediate imm5).getLsbD i = imm5.getLsbD (min i 4) := by
  rw [immediate, sextField, BitVec.getLsbD_signExtend, decide_eq_true hi, Bool.true_and]
  by_cases field : i < 5
  · rw [if_pos field, Nat.min_eq_left (by omega)]
  · rw [if_neg field, BitVec.msb_eq_getLsbD_last, Nat.min_eq_right (by omega)]

/-! ## The words of the five instructions: the opcode selects the row, and for ADD and AND bit 5 the mode (R65, R73) -/

theorem decode_fmtRR_add (dr sr1 : Reg) (x : BitVec 2) (sr2 : Reg) :
    decode (fmtRR 1#4 dr sr1 x sr2) = .addReg dr sr1 sr2 := by
  simp [decode]

theorem decode_fmtRI_add (dr sr1 : Reg) (imm5 : BitVec 5) :
    decode (fmtRI 1#4 dr sr1 imm5) = .addImm dr sr1 imm5 := by
  simp [decode]

theorem decode_fmtRR_and (dr sr1 : Reg) (x : BitVec 2) (sr2 : Reg) :
    decode (fmtRR 5#4 dr sr1 x sr2) = .andReg dr sr1 sr2 := by
  simp [decode]

theorem decode_fmtRI_and (dr sr1 : Reg) (imm5 : BitVec 5) :
    decode (fmtRI 5#4 dr sr1 imm5) = .andImm dr sr1 imm5 := by
  simp [decode]

theorem decode_fmtR2 (dr sr : Reg) (x : BitVec 6) : decode (fmtR2 dr sr x) = .notReg dr sr := by
  simp [decode]

/-! ## The instructions: each is one `writeResult`, of a value read from the state before it -/

theorem exec_addReg (dr sr1 sr2 : Reg) (s : State) :
    exec (.addReg dr sr1 sr2) s = .next (s.writeResult dr (aluAdd (s.reg sr1) (s.reg sr2))) := rfl

theorem exec_addImm (dr sr1 : Reg) (imm5 : BitVec 5) (s : State) :
    exec (.addImm dr sr1 imm5) s = .next (s.writeResult dr (plusSigned (s.reg sr1) imm5)) := by
  rw [← aluAdd_immediate]; rfl

theorem exec_andReg (dr sr1 sr2 : Reg) (s : State) :
    exec (.andReg dr sr1 sr2) s = .next (s.writeResult dr (aluAnd (s.reg sr1) (s.reg sr2))) := rfl

theorem exec_andImm (dr sr1 : Reg) (imm5 : BitVec 5) (s : State) :
    exec (.andImm dr sr1 imm5) s = .next (s.writeResult dr (aluAnd (s.reg sr1) (immediate imm5))) := rfl

theorem exec_notReg (dr sr : Reg) (s : State) :
    exec (.notReg dr sr) s = .next (s.writeResult dr (aluNot (s.reg sr))) := rfl

/-- Settles O12: the sum by `aluAdd_toNat`, the flags and the frame by `writeResult_spec`. -/
theorem addRegisterMode : Obligations.AddRegisterMode := by
  intro dr sr1 sr2 x s
  exact ⟨decode_fmtRR_add dr sr1 x sr2, _, _, exec_addReg dr sr1 sr2 s, aluAdd_toNat _ _, s.writeResult_spec dr _⟩

/-- Settles O13: the sum with the signed immediate by `aluAdd_immediate`, the flags and the frame by
`writeResult_spec`. -/
theorem addImmediateMode : Obligations.AddImmediateMode := by
  intro dr sr1 imm5 s
  exact ⟨decode_fmtRI_add dr sr1 imm5, _, exec_addImm dr sr1 imm5 s, s.writeResult_spec dr _⟩

/-- Settles O14: the bits by `aluAnd_getLsbD`, the flags and the frame by `writeResult_spec`. -/
theorem andRegisterMode : Obligations.AndRegisterMode := by
  intro dr sr1 sr2 x s
  exact ⟨decode_fmtRR_and dr sr1 x sr2, _, _, exec_andReg dr sr1 sr2 s, aluAnd_getLsbD _ _, s.writeResult_spec dr _⟩

/-- Settles O15: the bits by `aluAnd_getLsbD` and the mask by `immediate_getLsbD`. -/
theorem andImmediateMode : Obligations.AndImmediateMode := by
  intro dr sr1 imm5 s
  refine ⟨decode_fmtRI_and dr sr1 imm5, _, _, exec_andImm dr sr1 imm5 s, fun i hi => ?_, s.writeResult_spec dr _⟩
  rw [aluAnd_getLsbD, immediate_getLsbD imm5 hi]

/-- Settles O16: the complement by `aluNot_toNat`, the flags and the frame by `writeResult_spec`. -/
theorem notComplements : Obligations.NotComplements := by
  intro dr sr x s
  exact ⟨decode_fmtR2 dr sr x, _, _, exec_notReg dr sr s, aluNot_toNat _, s.writeResult_spec dr _⟩

end Sys2Proof.Machine

/-! PROOFS. LD, LDI, LDR, LEA, ST and STR: the words that decode to them, their addresses, and what they leave
(spec/42_data_move.md R90 to R97). -/

namespace Sys2Proof.Machine

/-! ## The effective addresses: adding the sign-extended offset adds its signed value (R12, R90) -/

theorem State.pcRelative_eq_plusSigned {n : Nat} (s : State) (off : BitVec n) :
    s.pcRelative off = plusSigned s.pc off :=
  (plusSigned_eq s.pc off).symm

theorem State.basePlusOffset_eq_plusSigned (s : State) (baseR : Reg) (off6 : BitVec 6) :
    s.basePlusOffset baseR off6 = plusSigned (s.reg baseR) off6 :=
  (plusSigned_eq (s.reg baseR) off6).symm

/-! ## The words of the six instructions: the opcode alone selects the row (R73) -/

theorem decode_fmtPC9_ld (dr : Reg) (off9 : BitVec 9) : decode (fmtPC9 2#4 dr off9) = .ld dr off9 := by
  simp [decode]

theorem decode_fmtPC9_ldi (dr : Reg) (off9 : BitVec 9) : decode (fmtPC9 10#4 dr off9) = .ldi dr off9 := by
  simp [decode]

theorem decode_fmtPC9_lea (dr : Reg) (off9 : BitVec 9) : decode (fmtPC9 14#4 dr off9) = .lea dr off9 := by
  simp [decode]

theorem decode_fmtPC9_st (sr : Reg) (off9 : BitVec 9) : decode (fmtPC9 3#4 sr off9) = .st sr off9 := by
  simp [decode]

theorem decode_fmtB6_ldr (dr baseR : Reg) (off6 : BitVec 6) :
    decode (fmtB6 6#4 dr baseR off6) = .ldr dr baseR off6 := by
  simp [decode]

theorem decode_fmtB6_str (sr baseR : Reg) (off6 : BitVec 6) :
    decode (fmtB6 7#4 sr baseR off6) = .str sr baseR off6 := by
  simp [decode]

/-! ## The instructions: a load is one `loadInto` (for LDI after the pointer's read), a store one `memWrite` -/

theorem exec_ld (dr : Reg) (off9 : BitVec 9) (s : State) :
    exec (.ld dr off9) s = .next (loadInto dr (plusSigned s.pc off9) s) := by
  rw [← s.pcRelative_eq_plusSigned]; rfl

theorem exec_ldi (dr : Reg) (off9 : BitVec 9) (s : State) :
    exec (.ldi dr off9) s =
      .next (loadInto dr (s.memRead (plusSigned s.pc off9)).1 (s.memRead (plusSigned s.pc off9)).2) := by
  rw [← s.pcRelative_eq_plusSigned]; rfl

theorem exec_ldr (dr baseR : Reg) (off6 : BitVec 6) (s : State) :
    exec (.ldr dr baseR off6) s = .next (loadInto dr (plusSigned (s.reg baseR) off6) s) := by
  rw [← s.basePlusOffset_eq_plusSigned]; rfl

theorem exec_lea (dr : Reg) (off9 : BitVec 9) (s : State) :
    exec (.lea dr off9) s = .next (s.writeResult dr (plusSigned s.pc off9)) := by
  rw [← s.pcRelative_eq_plusSigned]; rfl

theorem exec_st (sr : Reg) (off9 : BitVec 9) (s : State) :
    exec (.st sr off9) s = .next (s.memWrite (plusSigned s.pc off9) (s.reg sr)) := by
  rw [← s.pcRelative_eq_plusSigned]; rfl

theorem exec_str (sr baseR : Reg) (off6 : BitVec 6) (s : State) :
    exec (.str sr baseR off6) s = .next (s.memWrite (plusSigned (s.reg baseR) off6) (s.reg sr)) := by
  rw [← s.basePlusOffset_eq_plusSigned]; rfl

/-! ## Loads -/

/-- A load away from the status address writes the stored word and touches nothing else (R41, R91). -/
theorem loadInto_of_ne_kbsr {s : State} {ea : Word} (dr : Reg) (h : ea ≠ s.cfg.kbsrAddr) :
    loadInto dr ea s = s.writeResult dr (s.stored ea) := by
  rw [loadInto, s.memRead_other h]

/-- A load away from the status address, in the claims' terms. -/
theorem loadInto_spec_of_ne_kbsr {s : State} {ea : Word} (dr : Reg) (h : ea ≠ s.cfg.kbsrAddr) :
    (loadInto dr ea s).reg dr = s.stored ea ∧ SameOutside s (loadInto dr ea s) := by
  rw [loadInto_of_ne_kbsr dr h]
  obtain ⟨⟨result, -⟩, outside⟩ := s.writeResult_spec dr (s.stored ea)
  exact ⟨result, outside⟩

/-- No read writes a register or pc, so a result written after a read is also a result written from the state before
it. -/
theorem WritesResult.of_readFrame {dr : Reg} {v : Word} {s u t : State} (read : s.ReadFrame u)
    (written : WritesResult dr v u t) : WritesResult dr v s t := by
  obtain ⟨result, flag, regs, pc⟩ := written
  exact ⟨result, flag, fun r hr => (regs r hr).trans (State.reg_congr read.regs r), pc.trans read.pc⟩

/-- Settles O17: LD is one `loadInto`, at pc plus the signed offset. -/
theorem loadPcRelative : Obligations.LoadPcRelative := by
  intro dr off9 s
  obtain ⟨result, outside⟩ := loadInto_spec s (plusSigned s.pc off9) dr
  exact ⟨decode_fmtPC9_ld dr off9, _, exec_ld dr off9 s, result, outside, loadInto_spec_of_ne_kbsr dr⟩

/-- Settles O18: LDI is `loadInto` at the pointer, in the state that the pointer's read leaves; the pointer's read
keeps registers and pc, and away from the status address the whole state. -/
theorem loadIndirect : Obligations.LoadIndirect := by
  intro dr off9 s
  have pointerRead := s.memRead_frame (plusSigned s.pc off9)
  obtain ⟨result, outside⟩ :=
    loadInto_spec (s.memRead (plusSigned s.pc off9)).2 (s.memRead (plusSigned s.pc off9)).1 dr
  refine ⟨decode_fmtPC9_ldi dr off9, _, _, _, exec_ldi dr off9 s, rfl, rfl, result.of_readFrame pointerRead,
    outside, fun pointerPlain valuePlain => ?_⟩
  rw [s.memRead_other pointerPlain]
  exact loadInto_spec_of_ne_kbsr dr valuePlain

/-- Settles O19: LDR is one `loadInto`, at an address computed from the base before DR is written. -/
theorem loadBaseOffset : Obligations.LoadBaseOffset := by
  intro dr baseR off6 s
  obtain ⟨result, outside⟩ := loadInto_spec s (plusSigned (s.reg baseR) off6) dr
  exact ⟨decode_fmtB6_ldr dr baseR off6, _, exec_ldr dr baseR off6 s, result, outside, loadInto_spec_of_ne_kbsr dr⟩

/-- Settles O20: LEA is one `writeResult` of the address, with no read. -/
theorem loadEffectiveAddress : Obligations.LoadEffectiveAddress := by
  intro dr off9 s
  exact ⟨decode_fmtPC9_lea dr off9, _, exec_lea dr off9 s, s.writeResult_spec dr _⟩

/-! ## Stores -/

/-- What a store leaves: the word at its address, and everything else as it was (R42). -/
theorem State.memWrite_spec (s : State) (a v : Word) :
    (s.memWrite a v).stored a = v ∧ SameMemoryBut a s (s.memWrite a v) ∧ SameRegsBut [] s (s.memWrite a v) ∧
    (s.memWrite a v).pc = s.pc ∧ (s.memWrite a v).cond = s.cond ∧ SameInput s (s.memWrite a v) ∧
    SameOutput s (s.memWrite a v) ∧ SameControl s (s.memWrite a v) := by
  obtain ⟨word, others, regs, pc, cond, input, output, control, -⟩ := storeIsUnconditional s a v
  exact ⟨word, others, regs, pc, cond, input, output, control⟩

/-- Settles O21: ST is one `memWrite`, at pc plus the signed offset. -/
theorem storePcRelative : Obligations.StorePcRelative := by
  intro sr off9 s
  exact ⟨decode_fmtPC9_st sr off9, _, exec_st sr off9 s, s.memWrite_spec _ _⟩

/-- Settles O23: STR is one `memWrite`, at the base plus the signed offset. -/
theorem storeBaseOffset : Obligations.StoreBaseOffset := by
  intro sr baseR off6 s
  exact ⟨decode_fmtB6_str sr baseR off6, _, exec_str sr baseR off6 s, s.memWrite_spec _ _⟩

end Sys2Proof.Machine

/-! PROOFS. BR, JMP and JSR: the words that decode to them, when BR is taken, and what the three leave
(spec/43_control_flow.md R98 to R101). -/

namespace Sys2Proof.Machine

/-! ## The branch test: the AND with `cond` reads the one bit of the flag that `cond` holds (R25, R99) -/

@[simp] theorem branchTaken_neg (n z p : Bool) : branchTaken n z p .neg = n := by
  revert n z p; decide

@[simp] theorem branchTaken_zero (n z p : Bool) : branchTaken n z p .zero = z := by
  revert n z p; decide

@[simp] theorem branchTaken_pos (n z p : Bool) : branchTaken n z p .pos = p := by
  revert n z p; decide

theorem branchTaken_eq_true_iff (n z p : Bool) (c : Cond) :
    branchTaken n z p c = true ↔ (c = .neg ∧ n = true) ∨ (c = .zero ∧ z = true) ∨ (c = .pos ∧ p = true) := by
  cases c <;> simp

theorem branchTaken_eq_false_iff (n z p : Bool) (c : Cond) :
    branchTaken n z p c = false ↔ (c = .neg → n = false) ∧ (c = .zero → z = false) ∧ (c = .pos → p = false) := by
  cases c <;> simp

/-! ## The words of the three instructions: the opcode selects the row, and for JSR bit 11 the form (R73) -/

theorem decode_fmtBR (n z p : Bool) (off9 : BitVec 9) : decode (fmtBR n z p off9) = .br n z p off9 := by
  simp [decode]

theorem decode_fmtB (x : BitVec 3) (baseR : Reg) (y : BitVec 6) : decode (fmtB x baseR y) = .jmp baseR := by
  simp [decode]

theorem decode_fmtPC11 (off11 : BitVec 11) : decode (fmtPC11 off11) = .jsr off11 := by
  simp [decode]

/-! ## The instructions: each is one `setPc`, for JSR after the link -/

/-- A branch that is not taken writes pc with its own value. -/
theorem exec_br (n z p : Bool) (off9 : BitVec 9) (s : State) :
    exec (.br n z p off9) s =
      .next (s.setPc (if branchTaken n z p s.cond then plusSigned s.pc off9 else s.pc)) := by
  rw [← s.pcRelative_eq_plusSigned]
  change execBr n z p off9 s = _
  unfold execBr
  split <;> rfl

theorem exec_jmp (baseR : Reg) (s : State) : exec (.jmp baseR) s = .next (s.setPc (s.reg baseR)) := rfl

/-- The link writes R7 alone, so JSR's target counts from the pc it was run with. -/
theorem exec_jsr (off11 : BitVec 11) (s : State) :
    exec (.jsr off11) s = .next (s.link.setPc (plusSigned s.pc off11)) := by
  rw [← s.pcRelative_eq_plusSigned]; rfl

/-! ## What a write of pc leaves, alone and after the link -/

theorem State.setPc_frame (s : State) (a : Word) :
    SameRegsBut [] s (s.setPc a) ∧ (s.setPc a).cond = s.cond ∧ SameOutside s (s.setPc a) :=
  ⟨fun _ _ => rfl, rfl, fun _ => rfl, ⟨rfl, rfl, rfl⟩, ⟨rfl, rfl, rfl⟩, ⟨rfl, rfl, rfl⟩⟩

theorem State.link_setPc_frame (s : State) (a : Word) :
    SameRegsBut [7] s (s.link.setPc a) ∧ (s.link.setPc a).cond = s.cond ∧ SameOutside s (s.link.setPc a) := by
  refine ⟨fun r hr => ?_, rfl, fun _ => rfl, ⟨rfl, rfl, rfl⟩, ⟨rfl, rfl, rfl⟩, ⟨rfl, rfl, rfl⟩⟩
  rw [State.setPc_reg, State.link_reg, if_neg (List.ne_of_not_mem_cons hr)]

/-- Settles O24: BR is one `setPc`, to the target or to pc itself as the branch test decides. -/
theorem branchOnFlags : Obligations.BranchOnFlags := by
  intro n z p off9 s
  refine ⟨decode_fmtBR n z p off9, _, exec_br n z p off9 s, fun selected => ?_, fun unselected => ?_, s.setPc_frame _⟩
  · rw [State.setPc_pc, if_pos ((branchTaken_eq_true_iff n z p s.cond).mpr selected)]
  · rw [State.setPc_pc, (branchTaken_eq_false_iff n z p s.cond).mpr unselected, if_neg Bool.false_ne_true]

/-- Settles O25: JMP is one `setPc`, to the base register's value. -/
theorem jumpToRegister : Obligations.JumpToRegister := by
  intro baseR x y s
  exact ⟨decode_fmtB x baseR y, _, exec_jmp baseR s, State.setPc_pc s _, s.setPc_frame _⟩

/-- Settles O26: JSR is the link, which puts pc in R7, and then one `setPc`, to pc plus the signed offset. -/
theorem jumpSubroutine : Obligations.JumpSubroutine := by
  intro off11 s
  exact ⟨decode_fmtPC11 off11, _, exec_jsr off11 s, s.link_reg 7, State.setPc_pc s.link _, s.link_setPc_frame _⟩

end Sys2Proof.Machine

/-! PROOFS. The decoder: an equation per row of the opcode table, the round trip with the encoder, and that decoding is
total (spec/30_encoding.md R60 to R79). -/

namespace Sys2Proof.Machine

/-! ## Fields of a masked word -/

/-- A mask that covers bits 15:12 keeps the opcode (R60). -/
theorem opcodeOf_eq_of_and {w mask row : Word} (h : w &&& mask = row) (covers : opcodeOf mask = 15#4) :
    opcodeOf w = opcodeOf row := by
  have all : opcodeOf w &&& 15#4 = opcodeOf w := BitVec.and_allOnes
  rw [← h, opcodeOf, opcodeOf, BitVec.extractLsb'_and]
  exact (covers ▸ all).symm

/-- A mask that covers a bit keeps it. -/
theorem bitAt_eq_of_and {w mask row : Word} {i : Nat} (h : w &&& mask = row) (covers : bitAt mask i = true) :
    bitAt w i = bitAt row i := by
  rw [bitAt] at covers
  rw [← h, bitAt, bitAt, BitVec.getLsbD_and, covers, Bool.and_true]

/-- A mask that covers bits 7:0 keeps the trap vector (R71). -/
theorem vector_eq_of_and {w mask row : Word} (h : w &&& mask = row) (covers : lowField mask 8 = 255#8) :
    lowField w 8 = lowField row 8 := by
  have all : lowField w 8 &&& 255#8 = lowField w 8 := BitVec.and_allOnes
  rw [← h, lowField, lowField, BitVec.extractLsb'_and]
  exact (covers ▸ all).symm

/-- The trap vector in plain arithmetic (R71). -/
theorem vector_toNat (w : Word) : (lowField w 8).toNat = (w &&& 0x00FF#16).toNat := by
  rw [lowField, BitVec.extractLsb'_toNat, BitVec.toNat_and, Nat.shiftRight_zero]
  exact (Nat.and_two_pow_sub_one_eq_mod w.toNat 8).symm

/-! ## An equation of `decode` per row (R73) -/

section
variable {w : Word}

theorem decode_br (h : opcodeOf w = 0#4) :
    decode w = .br (bitAt w 11) (bitAt w 10) (bitAt w 9) (lowField w 9) := by simp [decode, h]

theorem decode_addReg (h : opcodeOf w = 1#4) (mode : bitAt w 5 = false) :
    decode w = .addReg (regAt w 9) (regAt w 6) (regAt w 0) := by simp [decode, h, mode]

theorem decode_addImm (h : opcodeOf w = 1#4) (mode : bitAt w 5 = true) :
    decode w = .addImm (regAt w 9) (regAt w 6) (lowField w 5) := by simp [decode, h, mode]

theorem decode_ld (h : opcodeOf w = 2#4) : decode w = .ld (regAt w 9) (lowField w 9) := by simp [decode, h]

theorem decode_st (h : opcodeOf w = 3#4) : decode w = .st (regAt w 9) (lowField w 9) := by simp [decode, h]

theorem decode_jsrr (h : opcodeOf w = 4#4) (form : bitAt w 11 = false) : decode w = .jsrr (regAt w 6) := by
  simp [decode, h, form]

theorem decode_jsr (h : opcodeOf w = 4#4) (form : bitAt w 11 = true) : decode w = .jsr (lowField w 11) := by
  simp [decode, h, form]

theorem decode_andReg (h : opcodeOf w = 5#4) (mode : bitAt w 5 = false) :
    decode w = .andReg (regAt w 9) (regAt w 6) (regAt w 0) := by simp [decode, h, mode]

theorem decode_andImm (h : opcodeOf w = 5#4) (mode : bitAt w 5 = true) :
    decode w = .andImm (regAt w 9) (regAt w 6) (lowField w 5) := by simp [decode, h, mode]

theorem decode_ldr (h : opcodeOf w = 6#4) : decode w = .ldr (regAt w 9) (regAt w 6) (lowField w 6) := by
  simp [decode, h]

theorem decode_str (h : opcodeOf w = 7#4) : decode w = .str (regAt w 9) (regAt w 6) (lowField w 6) := by
  simp [decode, h]

theorem decode_opcode8 (h : opcodeOf w = 8#4) : decode w = .opcode8 (lowField w 12) := by simp [decode, h]

theorem decode_notReg (h : opcodeOf w = 9#4) : decode w = .notReg (regAt w 9) (regAt w 6) := by simp [decode, h]

theorem decode_ldi (h : opcodeOf w = 10#4) : decode w = .ldi (regAt w 9) (lowField w 9) := by simp [decode, h]

theorem decode_sti (h : opcodeOf w = 11#4) : decode w = .sti (regAt w 9) (lowField w 9) := by simp [decode, h]

theorem decode_jmp (h : opcodeOf w = 12#4) : decode w = .jmp (regAt w 6) := by simp [decode, h]

theorem decode_opcode13 (h : opcodeOf w = 13#4) : decode w = .opcode13 (lowField w 12) := by simp [decode, h]

theorem decode_lea (h : opcodeOf w = 14#4) : decode w = .lea (regAt w 9) (lowField w 9) := by simp [decode, h]

theorem decode_trap (h : opcodeOf w = 15#4) : decode w = trapRow (w.extractLsb' 8 4) (lowField w 8) := by
  simp [decode, h]

/-- A TRAP word whose vector is `v` decodes to the row of `v` (R104). -/
theorem decode_trap_of_and {v : BitVec 8} (h : w &&& 0xF0FF#16 = fmtT 0#4 v) :
    decode w = trapRow (w.extractLsb' 8 4) v := by
  rw [decode_trap ((opcodeOf_eq_of_and h rfl).trans (opcodeOf_fmtT 0#4 v)), vector_eq_of_and h rfl, lowField_fmtT]

end

/-- A vector that is no service selects the undefined-vector row (R111). -/
theorem trapRow_of_none {v : BitVec 8} (high : BitVec 4) (h : serviceOf v = none) :
    trapRow high v = .trapUndefined high v := by
  simp [trapRow, h]

/-- Settles O5: each row's match fixes the opcode, and the mode bit or the vector where the row has one; the rest is
the row's equation. -/
theorem decodeFollowsOpcodeTable : Obligations.DecodeFollowsOpcodeTable := by
  intro w
  refine ⟨fun h => decode_br (opcodeOf_eq_of_and h rfl),
    fun h => decode_addReg (opcodeOf_eq_of_and h rfl) (bitAt_eq_of_and h rfl),
    fun h => decode_addImm (opcodeOf_eq_of_and h rfl) (bitAt_eq_of_and h rfl),
    fun h => decode_ld (opcodeOf_eq_of_and h rfl),
    fun h => decode_st (opcodeOf_eq_of_and h rfl),
    fun h => decode_jsrr (opcodeOf_eq_of_and h rfl) (bitAt_eq_of_and h rfl),
    fun h => decode_jsr (opcodeOf_eq_of_and h rfl) (bitAt_eq_of_and h rfl),
    fun h => decode_andReg (opcodeOf_eq_of_and h rfl) (bitAt_eq_of_and h rfl),
    fun h => decode_andImm (opcodeOf_eq_of_and h rfl) (bitAt_eq_of_and h rfl),
    fun h => decode_ldr (opcodeOf_eq_of_and h rfl),
    fun h => decode_str (opcodeOf_eq_of_and h rfl),
    fun h => decode_opcode8 (opcodeOf_eq_of_and h rfl),
    fun h => decode_notReg (opcodeOf_eq_of_and h rfl),
    fun h => decode_ldi (opcodeOf_eq_of_and h rfl),
    fun h => decode_sti (opcodeOf_eq_of_and h rfl),
    fun h => decode_jmp (opcodeOf_eq_of_and h rfl),
    fun h => decode_opcode13 (opcodeOf_eq_of_and h rfl),
    fun h => decode_lea (opcodeOf_eq_of_and h rfl),
    decode_trap_of_and (v := 0x20#8), decode_trap_of_and (v := 0x21#8), decode_trap_of_and (v := 0x22#8),
    decode_trap_of_and (v := 0x23#8), decode_trap_of_and (v := 0x24#8), decode_trap_of_and (v := 0x25#8),
    fun h noService => ?_⟩
  rw [← vector_toNat] at noService
  exact (decode_trap (opcodeOf_eq_of_and h rfl)).trans (trapRow_of_none _ ((serviceOf_eq_none _).mpr noService))

/-! ## The words of the remaining formats -/

theorem decode_fmtPC9_sti (sr : Reg) (off9 : BitVec 9) : decode (fmtPC9 11#4 sr off9) = .sti sr off9 := by
  rw [decode_sti (opcodeOf_fmtPC9 ..), regAt_fmtPC9_9, lowField_fmtPC9]

theorem decode_fmtBJ (x : BitVec 2) (baseR : Reg) (y : BitVec 6) : decode (fmtBJ x baseR y) = .jsrr baseR := by
  rw [decode_jsrr (opcodeOf_fmtBJ ..) (bitAt_fmtBJ_11 ..), regAt_fmtBJ_6]

theorem decode_fmtILL_opcode8 (low : BitVec 12) : decode (fmtILL 8#4 low) = .opcode8 low := by
  rw [decode_opcode8 (opcodeOf_fmtILL ..), lowField_fmtILL]

theorem decode_fmtILL_opcode13 (low : BitVec 12) : decode (fmtILL 13#4 low) = .opcode13 low := by
  rw [decode_opcode13 (opcodeOf_fmtILL ..), lowField_fmtILL]

theorem decode_fmtT (high : BitVec 4) (v : BitVec 8) : decode (fmtT high v) = trapRow high v := by
  rw [decode_trap (opcodeOf_fmtT ..), extract_fmtT_8, lowField_fmtT]

/-- Settles O6: each constructor's word is its format's word, and decodes by the lemma of that format. -/
theorem decodeEncodeRoundTrip : Obligations.DecodeEncodeRoundTrip := by
  intro i wf
  cases i with
  | br n z p off9 => exact decode_fmtBR n z p off9
  | addReg dr sr1 sr2 => exact decode_fmtRR_add dr sr1 0#2 sr2
  | addImm dr sr1 imm5 => exact decode_fmtRI_add dr sr1 imm5
  | ld dr off9 => exact decode_fmtPC9_ld dr off9
  | st sr off9 => exact decode_fmtPC9_st sr off9
  | jsrr baseR => exact decode_fmtBJ 0#2 baseR 0#6
  | jsr off11 => exact decode_fmtPC11 off11
  | andReg dr sr1 sr2 => exact decode_fmtRR_and dr sr1 0#2 sr2
  | andImm dr sr1 imm5 => exact decode_fmtRI_and dr sr1 imm5
  | ldr dr baseR off6 => exact decode_fmtB6_ldr dr baseR off6
  | str sr baseR off6 => exact decode_fmtB6_str sr baseR off6
  | opcode8 low => exact decode_fmtILL_opcode8 low
  | notReg dr sr => exact decode_fmtR2 dr sr 0b111111#6
  | ldi dr off9 => exact decode_fmtPC9_ldi dr off9
  | sti sr off9 => exact decode_fmtPC9_sti sr off9
  | jmp baseR => exact decode_fmtB 0#3 baseR 0#6
  | opcode13 low => exact decode_fmtILL_opcode13 low
  | lea dr off9 => exact decode_fmtPC9_lea dr off9
  | trap high v => exact absurd wf Bool.false_ne_true
  | trapGetc => exact decode_fmtT 0#4 0x20#8
  | trapOut => exact decode_fmtT 0#4 0x21#8
  | trapPuts => exact decode_fmtT 0#4 0x22#8
  | trapIn => exact decode_fmtT 0#4 0x23#8
  | trapPutsp => exact decode_fmtT 0#4 0x24#8
  | trapHalt => exact decode_fmtT 0#4 0x25#8
  | trapUndefined high v =>
    exact (decode_fmtT high v).trans (trapRow_of_none high (Option.isNone_iff_eq_none.mp wf))

/-! ## Totality -/

/-- Settles O8: each word evaluated. -/
theorem exampleWordsDecode : Obligations.ExampleWordsDecode := by
  unfold Obligations.ExampleWordsDecode
  decide

/-- A word is its opcode and its bits 11:0. -/
theorem fmtILL_opcodeOf (w : Word) : fmtILL (opcodeOf w) (lowField w 12) = w :=
  (BitVec.extractLsb'_append_extractLsb'_eq_extractLsb' rfl).trans BitVec.extractLsb'_eq_self

/-- A TRAP word is its bits 11:8 and its vector (R61). -/
theorem fmtT_of_opcodeOf {w : Word} (h : opcodeOf w = 15#4) : fmtT (w.extractLsb' 8 4) (lowField w 8) = w := by
  have high : 15#4 ++ w.extractLsb' 8 4 = w.extractLsb' 8 8 :=
    h ▸ BitVec.extractLsb'_append_extractLsb'_eq_extractLsb' rfl
  rw [fmtT, high]
  exact (BitVec.extractLsb'_append_extractLsb'_eq_extractLsb' rfl).trans BitVec.extractLsb'_eq_self

/-- Every row of a TRAP word is well formed, and only the undefined-vector row is invalid, which keeps the word
(R111, R115). -/
theorem trapRow_spec (high : BitVec 4) (v : BitVec 8) :
    (trapRow high v).wellFormed = true ∧
    (isInvalid (trapRow high v) = true → encode (trapRow high v) = fmtT high v) := by
  unfold trapRow
  split
  case h_7 noService => exact ⟨Option.isNone_iff_eq_none.mpr noService, fun _ => rfl⟩
  all_goals exact ⟨rfl, nofun⟩

/-- Every word decodes to a well-formed instruction, and an invalid one is kept whole (R79, R115). -/
theorem decode_spec (w : Word) :
    (decode w).wellFormed = true ∧ (isInvalid (decode w) = true → encode (decode w) = w) := by
  unfold decode
  split
  case h_2 | h_5 | h_6 => split <;> exact ⟨rfl, nofun⟩
  case h_9 op | h_14 op => exact ⟨rfl, fun _ => (congrArg (fmtILL · _) op.symm).trans (fmtILL_opcodeOf w)⟩
  case h_16 =>
    have op : opcodeOf w = 15#4 := by generalize opcodeOf w = op at *; revert op; decide
    have row := trapRow_spec (w.extractLsb' 8 4) (lowField w 8)
    rwa [fmtT_of_opcodeOf op] at row
  all_goals exact ⟨rfl, nofun⟩

/-- Settles O7: the round trip is that of the decoded instruction, which is well formed. -/
theorem everyWordDecodesWellFormed : Obligations.EveryWordDecodesWellFormed := by
  intro w
  obtain ⟨wf, kept⟩ := decode_spec w
  exact ⟨wf, decodeEncodeRoundTrip (decode w) wf, kept⟩

end Sys2Proof.Machine

/-! PROOFS. The state after reset and after start-up, the canonical form of memory, and the status word's poll
(spec/10_state.md R36; spec/20_memory.md R39 to R44, R50 to R56; spec/70_reset_and_hazards.md R134). -/

namespace Sys2Proof.Machine

/-! ## Reset and image loads -/

theorem State.resetWith_reg (cfg : Config) (q : List Byte) (r : Reg) : (State.resetWith cfg q).reg r = 0x0000#16 :=
  Vector.getElem_replicate _

/-- Settles O1: each field of the record, and that an image load writes memory alone. -/
theorem resetState : Obligations.ResetState := by
  intro cfg q
  exact ⟨State.resetWith_reg cfg q, rfl, rfl, fun _ => rfl, rfl, rfl, rfl, rfl, fun _ => rfl⟩

theorem State.resetWith_inv (cfg : Config) (q : List Byte) : (State.resetWith cfg q).Inv :=
  ⟨State.resetWith_mem_wf cfg q, Nat.le_refl _, .inl rfl⟩

/-- The words an image load stores end at 0xFFFF, so memory keeps its form (R50). -/
theorem loadImage_inv (i : Image) {s : State} (h : s.Inv) : (loadImage i s).Inv where
  memory := by
    have origin : i.origin.toNat < 65536 := i.origin.isLt
    refine Memory.wf_writeWords _ _ _ h.memory ?_
    rw [List.length_take]
    omega
  visible := h.visible
  waiting := h.waiting

/-- Settles O59: the invariant field by field. -/
theorem invariantAtReset : Obligations.InvariantAtReset :=
  ⟨State.resetWith_inv, State.resetWith_inv defaultConfig [], fun i _ h => loadImage_inv i h⟩

/-! ## Start-up -/

/-- One image that fails to load fails them all (R117). -/
theorem loadImages_of_none_mem {files : List (Option Image)} (h : none ∈ files) (s : State) :
    loadImages files s = none := by
  induction files generalizing s with
  | nil => simp at h
  | cons file rest ih =>
    cases file with
    | none => rfl
    | some i => exact ih (by simpa using h) (loadImage i s)

/-- Images that load are loaded from the first to the last (R52). -/
theorem loadImages_map_some (images : List Image) (s : State) :
    loadImages (images.map some) s = some (images.foldl (fun s j => loadImage j s) s) := by
  induction images generalizing s with
  | nil => rfl
  | cons i rest ih => exact ih (loadImage i s)

/-- Start-up with at least one image is decided by their loading (R134). -/
theorem startUp_cons (cfg : Config) (q : List Byte) (file : Option Image) (rest : List (Option Image)) :
    startUp cfg q (file :: rest) =
      match loadImages (file :: rest) (State.resetWith cfg q) with
      | none => .exits 1
      | some s => .runs s := rfl

/-- Settles O51: the loading by `loadImages_of_none_mem` and `loadImages_map_some`. -/
theorem startUpLoadsImagesInOrder : Obligations.StartUpLoadsImagesInOrder := by
  refine ⟨fun _ _ => rfl, fun cfg q files failing => ?_, fun cfg q i rest => ?_, rfl⟩
  · cases files with
    | nil => simp at failing
    | cons file rest => rw [startUp_cons, loadImages_of_none_mem failing]
  · rw [List.map_cons, startUp_cons, ← List.map_cons, loadImages_map_some]

/-! ## The canonical form of memory -/

theorem Memory.read_head (a : Nat) (w : Word) (rest : Memory) : Memory.read ((a, w) :: rest) a = w := if_pos rfl

/-- In the form, an address below the first entry reads 0x0000, and the entry's own does not: two memories that read
alike have the same first address. -/
theorem Memory.head_le {a b : Nat} {v w : Word} {m n : Memory} {lo : Nat}
    (hm : Memory.wfFrom lo ((a, v) :: m) = true) (hn : Memory.wfFrom lo ((b, w) :: n) = true)
    (alike : ∀ c, c < 65536 → Memory.read ((a, v) :: m) c = Memory.read ((b, w) :: n) c) : b ≤ a := by
  obtain ⟨-, bound, listed, -⟩ := (Memory.wfFrom_cons ..).mp hm
  obtain ⟨-, tail⟩ := (Memory.wfFrom_cons ..).mp hn
  refine Nat.le_of_not_lt fun below => listed ?_
  have unlisted := Memory.read_below b a ((b, w) :: n) ((Memory.wfFrom_cons ..).mpr ⟨Nat.le_refl b, tail⟩) below
  rw [← Memory.read_head a v m, alike a bound, unlisted]

/-- Memories in the form that read alike are equal: they have the same first entry, and their rests read alike. -/
theorem Memory.eq_of_read_eq {m n : Memory} {lo : Nat} (hm : m.wfFrom lo = true) (hn : n.wfFrom lo = true)
    (alike : ∀ a, a < 65536 → m.read a = n.read a) : m = n := by
  induction m generalizing n lo with
  | nil =>
    cases n with
    | nil => rfl
    | cons c n =>
      obtain ⟨-, bound, listed, -⟩ := (Memory.wfFrom_cons ..).mp hn
      exact absurd ((Memory.read_head ..).symm.trans (alike c.1 bound).symm) listed
  | cons c m ih =>
    obtain ⟨a, v⟩ := c
    cases n with
    | nil =>
      obtain ⟨-, bound, listed, -⟩ := (Memory.wfFrom_cons ..).mp hm
      exact absurd ((Memory.read_head ..).symm.trans (alike a bound)) listed
    | cons d n =>
      obtain ⟨b, w⟩ := d
      obtain rfl : a = b := Nat.le_antisymm (Memory.head_le hn hm fun c hc => (alike c hc).symm)
        (Memory.head_le hm hn alike)
      obtain ⟨-, bound, -, hm'⟩ := (Memory.wfFrom_cons ..).mp hm
      obtain ⟨-, -, -, hn'⟩ := (Memory.wfFrom_cons ..).mp hn
      have word : v = w := by simpa only [Memory.read_head] using alike a bound
      have rest : m = n := ih hm' hn' fun c hc => by
        by_cases own : a = c
        · rw [Memory.read_below _ c m hm' (by omega), Memory.read_below _ c n hn' (by omega)]
        · simpa only [Memory.read, if_neg own] using alike c hc
      rw [word, rest]

/-- Two states with the same other fields are equal if their memories, in the form, read alike. -/
theorem State.eq_of_read_eq {s t : State} (other : s = { t with mem := s.mem }) (hs : s.mem.wf = true)
    (ht : t.mem.wf = true) (alike : ∀ a, s.mem.read a = t.mem.read a) : s = t := by
  rw [other, Memory.eq_of_read_eq hs ht fun a _ => alike a]

/-- Settles O49: each equation of stores by the words read after them. -/
theorem memoryFormIsCanonical : Obligations.MemoryFormIsCanonical := by
  refine ⟨fun m n hm hn => Memory.eq_of_read_eq hm hn, fun s a b v w wf => ⟨?_, ?_, fun ne => ?_⟩⟩
  · refine State.eq_of_read_eq rfl (s.store_wf _ _ wf) wf fun c => ?_
    simp only [State.store_mem, Memory.read_write]
    split
    case isTrue h => rw [h, State.stored]
    case isFalse => rfl
  · refine State.eq_of_read_eq rfl (State.store_wf _ _ _ (s.store_wf _ _ wf)) (s.store_wf _ _ wf) fun c => ?_
    simp only [State.store_mem, Memory.read_write]
    split <;> rfl
  · refine State.eq_of_read_eq rfl (State.store_wf _ _ _ (s.store_wf _ _ wf))
      (State.store_wf _ _ _ (s.store_wf _ _ wf)) fun c => ?_
    have ne : a.toNat ≠ b.toNat := fun h => ne (BitVec.eq_of_toNat_eq h)
    simp only [State.store_mem, Memory.read_write]
    by_cases atA : c = a.toNat
    · simp [atA, ne]
    · simp [atA]

/-! ## Polls, fetches and the flag updater -/

/-- Settles O44: the poll's two cases; the frame is that of every poll. -/
theorem statusReadPolls : Obligations.StatusReadPolls := by
  intro s wf
  have distinct : s.cfg.kbsrAddr ≠ s.cfg.kbdrAddr := by simpa [Config.wf] using wf
  have frame := s.pollKeyboard_frame
  refine ⟨_, _, s.memRead_kbsr, rfl, fun c rest queue => ?_, fun empty => ?_, frame.mem,
    fun r _ => State.reg_congr frame.regs r, frame.pc, frame.cond, frame.stop, frame.host,
    ⟨frame.out, frame.flushed, frame.outFailAt⟩, ⟨frame.run, frame.wait, frame.cfg⟩⟩
  · rw [State.pollKeyboard_of_cons queue]
    simp [distinct]
  · rw [State.pollKeyboard_of_nil empty]
    simp [distinct.symm, empty]

/-- Settles O47: away from the status address the fetch reads the word that was stored. -/
theorem storeSeenByNextFetch : Obligations.StoreSeenByNextFetch := by
  intro s a v plain
  have read := ((s.memWrite a v).setPc a).memRead_other (a := a) plain
  rw [State.fetch_eq, State.setPc_pc, read, State.setPc_stored, State.memWrite_eq_store, State.stored_store, if_pos rfl]

/-- Settles O10: the flag by `flagOf_condOf`, and the write by `writeResult_spec`. -/
theorem setccFollowsValue : Obligations.SetccFollowsValue := by
  intro s v dr
  obtain ⟨⟨result, flag, -, -⟩, -⟩ := s.writeResult_spec dr v
  exact ⟨flagOf_condOf v, fun _ _ => rfl, rfl, ⟨fun _ => rfl, ⟨rfl, rfl, rfl⟩, ⟨rfl, rfl, rfl⟩, ⟨rfl, rfl, rfl⟩⟩,
    result, result.symm ▸ flag⟩

end Sys2Proof.Machine

/-! PROOFS. STI, JSRR, the invalid instructions and the dispatch of TRAP
(spec/40_fetch_decode_dispatch.md R81; spec/42_data_move.md R96; spec/43_control_flow.md R102;
spec/44_trap.md R103, R104, R111). -/

namespace Sys2Proof.Machine

/-! ## STI -/

theorem exec_sti (sr : Reg) (off9 : BitVec 9) (s : State) :
    exec (.sti sr off9) s =
      .next ((s.memRead (plusSigned s.pc off9)).2.memWrite (s.memRead (plusSigned s.pc off9)).1
        ((s.memRead (plusSigned s.pc off9)).2.reg sr)) := by
  rw [← s.pcRelative_eq_plusSigned]; rfl

/-- Settles O22: STI is one `memWrite` in the state that the pointer's read leaves, whose registers are those before
it. -/
theorem storeIndirect : Obligations.StoreIndirect := by
  intro sr off9 s
  have read := s.memRead_frame (plusSigned s.pc off9)
  have source : (s.memRead (plusSigned s.pc off9)).2.reg sr = s.reg sr := State.reg_congr read.regs sr
  obtain ⟨word, others, regs, pc, cond, input, ⟨out, flushed, draws⟩, run, wait, cfg⟩ :=
    (s.memRead (plusSigned s.pc off9)).2.memWrite_spec (s.memRead (plusSigned s.pc off9)).1
      ((s.memRead (plusSigned s.pc off9)).2.reg sr)
  refine ⟨decode_fmtPC9_sti sr off9, _, _, exec_sti sr off9 s, rfl, word.trans source, others,
    fun r hr => (regs r hr).trans (State.reg_congr read.regs r), pc.trans read.pc, cond.trans read.cond, input,
    ⟨out.trans read.out, flushed.trans read.flushed, draws.trans read.outFailAt⟩,
    ⟨run.trans read.run, wait.trans read.wait, cfg.trans read.cfg⟩, fun plain => ?_⟩
  rw [s.memRead_other plain] at word others input ⊢
  exact ⟨word, others, input⟩

/-! ## JSRR -/

theorem exec_jsrr (baseR : Reg) (s : State) : exec (.jsrr baseR) s = .next (s.link.setPc (s.link.reg baseR)) := rfl

/-- Settles O27: JSRR is the link and then one `setPc`, to a register read after the link. -/
theorem jumpSubroutineRegister : Obligations.JumpSubroutineRegister := by
  intro baseR x y s
  refine ⟨decode_fmtBJ x baseR y, _, exec_jsrr baseR s, s.link_reg 7, fun other => ?_, fun own => ?_,
    s.link_setPc_frame _⟩
  · rw [State.setPc_pc, State.link_reg, if_neg other]
  · rw [State.setPc_pc, State.link_reg, if_pos own]

/-! ## The end of a run, and the invalid instructions -/

/-- What the end of a run leaves: everything but the run state and the waiting service (R30). -/
theorem State.haltWith_frame (s : State) (reason : HaltReason) :
    (s.haltWith reason).pc = s.pc ∧ (s.haltWith reason).cond = s.cond ∧ SameRegsBut [] s (s.haltWith reason) ∧
    SameMemory s (s.haltWith reason) ∧ SameInput s (s.haltWith reason) ∧ SameOutput s (s.haltWith reason) ∧
    (s.haltWith reason).cfg = s.cfg :=
  ⟨rfl, rfl, fun _ _ => rfl, fun _ => rfl, ⟨rfl, rfl, rfl⟩, ⟨rfl, rfl, rfl⟩, rfl⟩

theorem exec_opcode8 (low : BitVec 12) (s : State) :
    exec (.opcode8 low) s = .next (s.haltWith (.invalidOpcode (s.pc - 1) (fmtILL 8#4 low))) := rfl

theorem exec_opcode13 (low : BitVec 12) (s : State) :
    exec (.opcode13 low) s = .next (s.haltWith (.invalidOpcode (s.pc - 1) (fmtILL 13#4 low))) := rfl

theorem exec_trapUndefined (high : BitVec 4) (v : BitVec 8) (s : State) :
    exec (.trapUndefined high v) s = .next (s.link.haltWith (.invalidOpcode (s.pc - 1) (fmtT high v))) := rfl

/-- Settles O28: each of the two opcodes is one `haltWith`. -/
theorem invalidOpcodesHalt : Obligations.InvalidOpcodesHalt := by
  intro low s
  exact ⟨⟨decode_fmtILL_opcode8 low, _, exec_opcode8 low s, rfl, rfl, s.haltWith_frame _⟩,
    decode_fmtILL_opcode13 low, _, exec_opcode13 low s, rfl, rfl, s.haltWith_frame _⟩

/-- After the TRAP entry R7 alone differs (R103). -/
theorem State.sameRegsBut_link (s : State) : SameRegsBut [7] s s.link := by
  intro r hr
  rw [State.link_reg, if_neg (List.ne_of_not_mem_cons hr)]

/-! ## The dispatch of TRAP -/

theorem exec_trap_of_service {v : BitVec 8} {w : Service} (high : BitVec 4) (s : State) (h : serviceOf v = some w) :
    exec (.trap high v) s = serviceOutcome w s.link := by
  change execTrap high v s = _
  rw [execTrap, h]

theorem exec_trap_of_none {v : BitVec 8} (high : BitVec 4) (s : State) (h : serviceOf v = none) :
    exec (.trap high v) s = exec (.trapUndefined high v) s := by
  change execTrap high v s = _
  rw [execTrap, h]
  rfl

/-- The common TRAP row does what the row of its vector does (R103). -/
theorem exec_trap (high : BitVec 4) (v : BitVec 8) (s : State) : exec (.trap high v) s = exec (trapRow high v) s := by
  cases h : serviceOf v with
  | none => rw [exec_trap_of_none high s h, trapRow_of_none high h]
  | some w =>
    rw [exec_trap_of_service high s h, trapRow, h]
    cases w <;> rfl

/-- Settles O29: a TRAP word decodes by `decode_fmtT` to the row of its vector, which `exec_trap` runs. -/
theorem trapDispatchesOnVector : Obligations.TrapDispatchesOnVector := by
  refine ⟨fun high v => ?_, fun high v s => by rw [exec_trap, decode_fmtT]⟩
  have vector {n : Nat} (h : v.toNat = n) : decode (fmtT high v) = trapRow high (BitVec.ofNat 8 n) := by
    rw [decode_fmtT, ← h, BitVec.ofNat_toNat, BitVec.setWidth_eq]
  exact ⟨vector, vector, vector, vector, vector, vector, fun noService =>
    (decode_fmtT high v).trans (trapRow_of_none high ((serviceOf_eq_none v).mpr noService))⟩

/-- Settles O42: the undefined-vector row is the link and then one `haltWith`. -/
theorem undefinedVectorHalts : Obligations.UndefinedVectorHalts := by
  intro high v s noService
  obtain ⟨pc, cond, regs, memory, input, output, cfg⟩ := s.link.haltWith_frame (.invalidOpcode (s.pc - 1) (fmtT high v))
  exact ⟨(decode_fmtT high v).trans (trapRow_of_none high ((serviceOf_eq_none v).mpr noService)), _,
    exec_trapUndefined high v s, rfl, rfl, s.link_reg 7,
    fun r hr => (regs r List.not_mem_nil).trans (s.sameRegsBut_link r hr), pc, cond, memory, input, output, cfg⟩

end Sys2Proof.Machine

/-! PROOFS. GETC, OUT, IN and HALT: each output service is a series of `writeOut`, bytes and then a flush, whose result
is known for every draw (spec/44_trap.md R105 to R113). -/

namespace Sys2Proof.Machine

/-! ## Bytes and then a flush -/

/-- `Out` for each byte and then `Flush`: the part that OUT, IN and HALT repeat. -/
def writeOut (bs : List Byte) (s : State) : Ran := (outBytes bs s).andThen State.flush

/-- What `writeOut` leaves when every call succeeds. -/
def State.written (bs : List Byte) (s : State) : State := (s.emitted bs).drawUsed.markFlushed

theorem outBytes_singleton (b : Byte) (s : State) : outBytes [b] s = s.outByte b := by
  rw [outBytes]
  cases s.outByte b <;> rfl

theorem writeOut_good {bs : List Byte} {s : State} (good : OutputGood (bs.length + 1) s) :
    writeOut bs s = .goesOn (s.written bs) := by
  rw [writeOut, outBytes_good (good.mono (Nat.le_succ _)), Ran.andThen, State.flush_good (k := 0) good.emitted]
  rfl

/-- The failing call is the byte at its index, or the flush if its index is the number of bytes (R113). -/
theorem writeOut_fails {bs : List Byte} {k : Nat} {s : State} (draw : s.outFailAt = some k) (hk : k ≤ bs.length) :
    writeOut bs s = .ended ((s.emitted (bs.take k)).haltWith .outputFailure) := by
  obtain byte | rfl := Nat.lt_or_eq_of_le hk
  · rw [writeOut, outBytes_fails draw byte]; rfl
  · have last : (s.emitted bs).outFailAt = some 0 := by simp [draw]
    obtain ⟨-, failed⟩ | ⟨succeeds, -⟩ := (s.emitted bs).flush_cases
    · rw [writeOut, outBytes_good (.inr ⟨_, draw, Nat.le_refl _⟩), Ran.andThen, failed, List.take_length]
    · exact absurd last succeeds

theorem OutputGood.written {k : Nat} {s : State} {bs : List Byte} (good : OutputGood (bs.length + (k + 1)) s) :
    OutputGood k (s.written bs) :=
  good.emitted.drawUsed rfl

/-- The draws that `writeOut` leaves: one fewer for each byte and one for the flush. -/
theorem State.written_outFailAt {s : State} {bs : List Byte} {k : Nat} (draw : s.outFailAt = some (bs.length + 1 + k)) :
    (s.written bs).outFailAt = some k := by
  simp [State.written, draw]
  omega

/-! ## Frames -/

theorem State.emitted_frame (bs : List Byte) (s : State) : s.OutFrame (s.emitted bs) :=
  ⟨rfl, rfl, rfl, rfl, rfl, rfl, rfl, rfl, List.prefix_append _ _,
    fun h => h.trans (by rw [State.emitted_out, List.length_append]; exact Nat.le_add_right _ _), .inl ⟨rfl, rfl⟩,
    fun h => by simp [h]⟩

theorem State.written_frame (bs : List Byte) (s : State) : s.OutFrame (s.written bs) :=
  ⟨rfl, rfl, rfl, rfl, rfl, rfl, rfl, rfl, List.prefix_append _ _, fun _ => Nat.le_refl _, .inl ⟨rfl, rfl⟩,
    fun h => by simp [State.written, h]⟩

/-- What the TRAP entry and output calls after it leave, in the claims' terms. It says nothing of the run state, so it
holds of `t` ended by `haltWith` too. -/
theorem State.OutFrame.claims {s t : State} (frame : s.link.OutFrame t) :
    t.reg 7 = s.pc ∧ SameRegsBut [7] s t ∧ t.pc = s.pc ∧ t.cond = s.cond ∧ SameMemory s t ∧ SameInput s t ∧
      t.cfg = s.cfg :=
  ⟨(State.reg_congr frame.regs 7).trans (s.link_reg 7),
    fun r hr => (State.reg_congr frame.regs r).trans (s.sameRegsBut_link r hr), frame.pc, frame.cond,
    State.stored_congr frame.mem, ⟨frame.inq, frame.stop, frame.host⟩, frame.cfg⟩

/-- The registers written by two parts are those of either. -/
theorem SameRegsBut.append {ps rs : List Reg} {s t u : State} (first : SameRegsBut ps s t)
    (second : SameRegsBut rs t u) : SameRegsBut (rs ++ ps) s u := by
  intro r hr
  rw [List.mem_append, not_or] at hr
  exact (second r hr.1).trans (first r hr.2)

theorem SameRegsBut.mono {ps rs : List Reg} {s t : State} (h : SameRegsBut ps s t) (sub : ps ⊆ rs) :
    SameRegsBut rs s t :=
  fun r hr => h r fun mem => hr (sub mem)

/-- What taking a character leaves: R0 and the flags (R105, R108). -/
theorem State.takeCharacter_spec (s : State) (c : Byte) :
    ((s.takeCharacter c).reg 0).toNat = c.toNat ∧ FlagOf ((s.takeCharacter c).reg 0) (s.takeCharacter c).cond ∧
    SameRegsBut [0] s (s.takeCharacter c) ∧ (s.takeCharacter c).pc = s.pc ∧ SameOutside s (s.takeCharacter c) := by
  obtain ⟨⟨result, flag, regs, pc⟩, outside⟩ := s.writeResult_spec 0 (zextField c)
  exact ⟨(congrArg BitVec.toNat result).trans (zextField_byte_toNat c), result.symm ▸ flag, regs, pc, outside⟩

/-! ## OUT -/

/-- The TRAP entry leaves R0, which the services read. -/
theorem State.link_serviceReg (s : State) : s.link.reg serviceReg = s.reg 0 := s.link_reg 0

theorem exec_trapOut (s : State) :
    exec .trapOut s = .next (writeOut [(s.reg 0).setWidth 8] s.link).state := by
  rw [writeOut, outBytes_singleton, ← lowByte_eq, ← s.link_serviceReg]
  rfl

theorem exec_trapOut_good {s : State} (good : OutputGood 2 s) :
    exec .trapOut s = .next (s.link.written [(s.reg 0).setWidth 8]) := by
  rw [exec_trapOut, writeOut_good (bs := [_]) (s := s.link) good]
  rfl

theorem exec_trapOut_fails {s : State} {k : Nat} (draw : s.outFailAt = some k) (hk : k < 2) :
    exec .trapOut s = .next ((s.link.emitted ([(s.reg 0).setWidth 8].take k)).haltWith .outputFailure) := by
  rw [exec_trapOut, writeOut_fails (bs := [_]) (s := s.link) draw (Nat.le_of_lt_succ hk)]
  rfl

/-- Settles O34: OUT is one `writeOut` of one byte. -/
theorem outWritesLowByte : Obligations.OutWritesLowByte := by
  refine ⟨fun high => decode_fmtT high 0x21#8, fun s good => ?_, fun s k draw hk => ?_⟩
  · obtain ⟨link, regs, pc, cond, memory, input, cfg⟩ := (s.link.written_frame [(s.reg 0).setWidth 8]).claims
    exact ⟨_, exec_trapOut_good good, rfl, rfl, link, regs, pc, cond, memory, input, rfl, rfl, cfg⟩
  · exact ⟨_, exec_trapOut_fails draw hk, rfl, rfl, rfl, rfl,
      (s.link.emitted_frame ([(s.reg 0).setWidth 8].take k)).claims⟩

/-! ## GETC -/

theorem exec_trapGetc (s : State) : exec .trapGetc s = .next (serviceGetc s.link) := rfl

theorem serviceGetc_of_nil {s : State} (empty : s.inq = []) : serviceGetc s = s.setWait .getc := by
  simpa [empty] using serviceGetc_cases s

theorem serviceGetc_of_cons {s : State} {c : Byte} {rest : List Byte} (queue : s.inq = c :: rest) :
    serviceGetc s = (s.setInq rest).takeCharacter c := by
  simpa [queue] using serviceGetc_cases s

/-- Settles O31: GETC takes the character after the link, and R0 is not the link register. -/
theorem getcReadsCharacter : Obligations.GetcReadsCharacter := by
  intro s c rest queue
  obtain ⟨value, flag, regs, pc, memory, ⟨inq, stop, host⟩, output, control⟩ :=
    (s.link.setInq rest).takeCharacter_spec c
  refine ⟨_, exec_trapGetc s, ?_⟩
  rw [serviceGetc_of_cons (s := s.link) queue]
  exact ⟨value, flag, (regs 7 (by decide)).trans (s.link_reg 7), SameRegsBut.append s.sameRegsBut_link regs, pc, inq,
    stop, host, memory, output, control⟩

/-! ## IN -/

theorem exec_trapIn (s : State) :
    exec .trapIn s = .next ((writeOut s.cfg.inPrompt s.link).andThen inputFromRead).state := rfl

theorem inputFromRead_of_nil {s : State} (empty : s.inq = []) : inputFromRead s = .goesOn (s.setWait .input) := by
  simpa [empty] using inputFromRead_cases s

theorem inputFromRead_of_cons {s : State} {c : Byte} {rest : List Byte} (queue : s.inq = c :: rest) :
    inputFromRead s = echoCharacter c (s.setInq rest) := by
  simpa [queue] using inputFromRead_cases s

theorem echoCharacter_eq (c : Byte) (s : State) :
    echoCharacter c s = (writeOut [c] s).andThen (fun t => .goesOn (t.takeCharacter c)) := by
  rw [writeOut, outBytes_singleton]
  rfl

theorem echoCharacter_good {s : State} (c : Byte) (good : OutputGood 2 s) :
    echoCharacter c s = .goesOn ((s.written [c]).takeCharacter c) := by
  rw [echoCharacter_eq, writeOut_good (bs := [c]) good]
  rfl

/-- R0 and the flags are not written if the echo, or the flush after it, fails (R113). -/
theorem echoCharacter_fails {s : State} {k : Nat} (c : Byte) (draw : s.outFailAt = some k) (hk : k < 2) :
    echoCharacter c s = .ended ((s.emitted ([c].take k)).haltWith .outputFailure) := by
  rw [echoCharacter_eq, writeOut_fails (bs := [c]) draw (Nat.le_of_lt_succ hk)]
  rfl

theorem exec_trapIn_waits {s : State} (empty : s.inq = []) (good : OutputGood (s.cfg.inPrompt.length + 1) s) :
    exec .trapIn s = .next ((s.link.written s.cfg.inPrompt).setWait .input) := by
  rw [exec_trapIn, writeOut_good (s := s.link) good, Ran.andThen,
    inputFromRead_of_nil (s := s.link.written s.cfg.inPrompt) empty]
  rfl

theorem exec_trapIn_good {s : State} {c : Byte} {rest : List Byte} (queue : s.inq = c :: rest)
    (good : OutputGood (s.cfg.inPrompt.length + 3) s) :
    exec .trapIn s =
      .next ((((s.link.written s.cfg.inPrompt).setInq rest).written [c]).takeCharacter c) := by
  have echoGood : OutputGood 2 ((s.link.written s.cfg.inPrompt).setInq rest) := OutputGood.written (s := s.link) good
  rw [exec_trapIn, writeOut_good (s := s.link) (good.mono (Nat.le_add_right _ 2)), Ran.andThen,
    inputFromRead_of_cons (s := s.link.written s.cfg.inPrompt) queue, echoCharacter_good c echoGood]
  rfl

theorem exec_trapIn_fails_prompt {s : State} {k : Nat} (draw : s.outFailAt = some k)
    (hk : k ≤ s.cfg.inPrompt.length) :
    exec .trapIn s = .next ((s.link.emitted (s.cfg.inPrompt.take k)).haltWith .outputFailure) := by
  rw [exec_trapIn, writeOut_fails (s := s.link) draw hk]
  rfl

theorem exec_trapIn_fails_echo {s : State} {c : Byte} {rest : List Byte} {j : Nat} (queue : s.inq = c :: rest)
    (draw : s.outFailAt = some (s.cfg.inPrompt.length + 1 + j)) (hj : j < 2) :
    exec .trapIn s =
      .next ((((s.link.written s.cfg.inPrompt).setInq rest).emitted ([c].take j)).haltWith .outputFailure) := by
  have promptGood : OutputGood (s.cfg.inPrompt.length + 1) s.link := .inr ⟨_, draw, Nat.le_add_right _ _⟩
  have echoDraw : ((s.link.written s.cfg.inPrompt).setInq rest).outFailAt = some j :=
    State.written_outFailAt (s := s.link) draw
  rw [exec_trapIn, writeOut_good promptGood, Ran.andThen,
    inputFromRead_of_cons (s := s.link.written s.cfg.inPrompt) queue, echoCharacter_fails c echoDraw hj]
  rfl

/-- Settles O32: the waiting state is the one before the read, with `wait` set. -/
theorem getcAndInWaitForInput : Obligations.GetcAndInWaitForInput := by
  refine ⟨fun s empty => ?_, fun s empty good => ?_⟩
  · exact ⟨_, (exec_trapGetc s).trans (congrArg _ (serviceGetc_of_nil (s := s.link) empty)), rfl, rfl, s.link_reg 7,
      s.sameRegsBut_link, rfl, rfl, fun _ => rfl, ⟨rfl, rfl, rfl⟩, ⟨rfl, rfl, rfl⟩, rfl⟩
  · obtain ⟨link, regs, pc, cond, memory, input, cfg⟩ := (s.link.written_frame s.cfg.inPrompt).claims
    exact ⟨_, exec_trapIn_waits empty good, rfl, rfl, link, regs, pc, cond, memory, input, rfl, rfl, cfg⟩

/-- Settles O40: IN is the prompt's `writeOut`, the read, and the echo's `writeOut`; a failing draw counts calls from
the first of them. -/
theorem inPromptsAndEchoes : Obligations.InPromptsAndEchoes := by
  refine ⟨fun s c rest queue good => ?_, fun s k draw hk => ?_, fun s c rest j queue draw hj => ?_⟩
  · obtain ⟨link, regs, pc, -, memory, ⟨-, stop, host⟩, -⟩ := (s.link.written_frame s.cfg.inPrompt).claims
    obtain ⟨value, flag, regs', pc', memory', ⟨inq, stop', host'⟩, ⟨out, flushed, -⟩, control⟩ :=
      (((s.link.written s.cfg.inPrompt).setInq rest).written [c]).takeCharacter_spec c
    exact ⟨_, exec_trapIn_good queue good, out, flushed.trans (congrArg List.length out.symm), value, flag,
      (regs' 7 (by decide)).trans link, SameRegsBut.append regs regs', pc'.trans pc, inq, stop'.trans stop,
      host'.trans host, fun a => (memory' a).trans (memory a), control⟩
  · exact ⟨_, exec_trapIn_fails_prompt draw hk, rfl, rfl, rfl, rfl,
      (s.link.emitted_frame (s.cfg.inPrompt.take k)).claims⟩
  · obtain ⟨link, regs, pc, cond, memory, ⟨-, stop, host⟩, cfg⟩ := (s.link.written_frame s.cfg.inPrompt).claims
    exact ⟨_, exec_trapIn_fails_echo queue draw hj, rfl, rfl, rfl, List.length_append, rfl, stop, host, link, regs,
      cond, pc, memory, cfg⟩

/-! ## HALT -/

/-- HALT's first flush is a `writeOut` of no bytes. -/
theorem exec_trapHalt (s : State) :
    exec .trapHalt s =
      .next (((writeOut [] s.link).andThen fun t => writeOut t.cfg.haltNotice t).andThen
        fun t => .goesOn (t.haltWith .halt)).state := by
  change Host.Outcome.next (serviceHalt s.link).state = _
  rw [serviceHalt]
  cases h : s.link.flush <;> simp [writeOut, outBytes, Ran.andThen, h]

theorem exec_trapHalt_good {s : State} (good : OutputGood (s.cfg.haltNotice.length + 2) s) :
    exec .trapHalt s = .next (((s.link.written []).written s.cfg.haltNotice).haltWith .halt) := by
  have noticeGood : OutputGood (s.cfg.haltNotice.length + 1) (s.link.written []) :=
    OutputGood.written (s := s.link) (good.mono (by simp))
  rw [exec_trapHalt, writeOut_good (s := s.link) (good.mono (by simp)), Ran.andThen,
    writeOut_good (bs := (s.link.written []).cfg.haltNotice) noticeGood]
  rfl

theorem exec_trapHalt_fails_first {s : State} (draw : s.outFailAt = some 0) :
    exec .trapHalt s = .next ((s.link.emitted []).haltWith .outputFailure) := by
  rw [exec_trapHalt, writeOut_fails (s := s.link) draw (Nat.zero_le _)]
  rfl

/-- A call after the first flush: the notice's draws are one fewer. -/
theorem exec_trapHalt_fails_notice {s : State} {k : Nat} (draw : s.outFailAt = some (k + 1))
    (hk : k ≤ s.cfg.haltNotice.length) :
    exec .trapHalt s =
      .next (((s.link.written []).emitted (s.cfg.haltNotice.take k)).haltWith .outputFailure) := by
  have noticeDraw : (s.link.written []).outFailAt = some k :=
    State.written_outFailAt (s := s.link) (bs := []) (draw.trans (by simp [Nat.add_comm]))
  rw [exec_trapHalt, writeOut_good (s := s.link) (.inr ⟨_, draw, by simp⟩), Ran.andThen,
    writeOut_fails (bs := (s.link.written []).cfg.haltNotice) noticeDraw hk]
  rfl

/-- A flush of no bytes adds none. -/
theorem State.written_nil_out (s : State) : (s.written []).out = s.out := List.append_nil _

/-- Settles O41: HALT's calls by `exec_trapHalt_good` and the two failures. -/
theorem haltEndsRun : Obligations.HaltEndsRun := by
  refine ⟨fun s good => ?_, fun s k draw hk => ?_⟩
  · have notice : s.link.OutFrame ((s.link.written []).written s.cfg.haltNotice) :=
      (s.link.written_frame _).trans (State.written_frame _ _)
    exact ⟨_, exec_trapHalt_good good, rfl, rfl, congrArg (· ++ s.cfg.haltNotice) s.link.written_nil_out, rfl,
      notice.claims⟩
  · cases k with
    | zero => exact ⟨_, exec_trapHalt_fails_first draw, rfl, rfl, rfl, rfl, (s.link.emitted_frame []).claims⟩
    | succ k =>
      have notice : s.link.OutFrame ((s.link.written []).emitted (s.cfg.haltNotice.take k)) :=
        (s.link.written_frame _).trans (State.emitted_frame _ _)
      exact ⟨_, exec_trapHalt_fails_notice draw (by omega), rfl, rfl,
        congrArg (· ++ s.cfg.haltNotice.take k) s.link.written_nil_out, congrArg List.length s.link.written_nil_out,
        notice.claims⟩

end Sys2Proof.Machine

/-! PROOFS. PUTS and PUTSP: one loop over both forms of a string, the fuel that is enough for each loop that ends, and
the loops of the rules (spec/44_trap.md R107, R109). -/

namespace Sys2Proof.Machine

/-! ## The loop of both services -/

/-- A form of strings in memory: the bytes a word holds, and whether the string ends in it. The zero word ends every
string, and a word that does not end it has a byte to write. -/
structure StringForm where
  chars : Word → List Byte
  ends : Word → Bool
  ends_zero : ends 0#16 = true
  chars_ne_nil : ∀ w, ends w = false → chars w ≠ []

/-- The strings of PUTS: one byte a word, up to the first zero word (R107). -/
def putsForm : StringForm where
  chars w := if w = 0#16 then [] else [lowByte w]
  ends w := decide (w = 0#16)
  ends_zero := rfl
  chars_ne_nil w h := by simp [of_decide_eq_false h]

/-- The strings of PUTSP: two bytes a word, the low one first, up to the first zero byte (R109). -/
def putspForm : StringForm where
  chars w := if lowByte w = 0#8 then [] else if highByte w = 0#8 then [lowByte w] else [lowByte w, highByte w]
  ends w := decide (lowByte w = 0#8 ∨ highByte w = 0#8)
  ends_zero := rfl
  chars_ne_nil w h := by
    obtain ⟨low, high⟩ := not_or.mp (of_decide_eq_false h)
    simp [low, high]

/-- The loop of a string service, for at most `fuel` words. -/
def StringForm.loop (form : StringForm) : Nat → Word → State → Option Ran
  | 0, _, _ => none
  | fuel + 1, a, s =>
    match outBytes (form.chars (s.stringRead a).1) (s.stringRead a).2 with
    | .ended t => some (.ended t)
    | .goesOn t => if form.ends (s.stringRead a).1 then some t.flush else form.loop fuel (a + 1) t

theorem putsLoop_eq (n : Nat) (a : Word) (s : State) : putsLoop n a s = putsForm.loop n a s := by
  induction n generalizing a s with
  | zero => rfl
  | succ n ih =>
    rw [putsLoop, StringForm.loop]
    by_cases zero : (s.stringRead a).1 = 0#16
    · simp [putsForm, zero, outBytes]
    · have chars : putsForm.chars (s.stringRead a).1 = [lowByte (s.stringRead a).1] := if_neg zero
      have goes : putsForm.ends (s.stringRead a).1 = false := decide_eq_false zero
      rw [if_neg zero, chars, goes, outBytes_singleton]
      cases (s.stringRead a).2.outByte (lowByte (s.stringRead a).1) with
      | ended t => rfl
      | goesOn t => exact ih (a + 1) t

theorem putspLoop_eq (n : Nat) (a : Word) (s : State) : putspLoop n a s = putspForm.loop n a s := by
  induction n generalizing a s with
  | zero => rfl
  | succ n ih =>
    rw [putspLoop, StringForm.loop]
    by_cases low : lowByte (s.stringRead a).1 = 0#8
    · simp [putspForm, low, outBytes]
    · by_cases high : highByte (s.stringRead a).1 = 0#8
      · have chars : putspForm.chars (s.stringRead a).1 = [lowByte (s.stringRead a).1] := by simp [putspForm, low, high]
        have last : putspForm.ends (s.stringRead a).1 = true := decide_eq_true (.inr high)
        rw [if_neg low, chars, last, outBytes_singleton]
        cases (s.stringRead a).2.outByte (lowByte (s.stringRead a).1) with
        | ended t => rfl
        | goesOn t => exact if_pos high
      · have chars : putspForm.chars (s.stringRead a).1 =
            [lowByte (s.stringRead a).1, highByte (s.stringRead a).1] := by simp [putspForm, low, high]
        have goes : putspForm.ends (s.stringRead a).1 = false := decide_eq_false (not_or.mpr ⟨low, high⟩)
        rw [if_neg low, chars, goes, outBytes]
        cases (s.stringRead a).2.outByte (lowByte (s.stringRead a).1) with
        | ended t => rfl
        | goesOn t =>
          rw [Ran.andThen, outBytes_singleton]
          refine (if_neg high).trans ?_
          cases t.outByte (highByte (s.stringRead a).1) with
          | ended u => rfl
          | goesOn u => exact ih (a + 1) u

/-! ## A word that the string goes on after -/

/-- Calls that all succeeded wrote their bytes and used up their draws (R33). -/
theorem eq_emitted_of_outBytes {bs : List Byte} {s t : State} (h : outBytes bs s = .goesOn t) :
    t = s.emitted bs ∧ OutputGood bs.length s := by
  by_cases good : OutputGood bs.length s
  · rw [outBytes_good good] at h
    cases h
    exact ⟨rfl, good⟩
  · cases draw : s.outFailAt with
    | none => exact absurd (.inl draw) good
    | some k =>
      have fails : k < bs.length := Nat.lt_of_not_le fun hk => good (.inr ⟨k, draw, hk⟩)
      rw [outBytes_fails draw fails] at h
      cases h

/-- The loop at `a` in state `s` goes on, at the next address, in state `t`. -/
def StringForm.GoesOn (form : StringForm) (a : Word) (s t : State) : Prop :=
  form.ends (s.stringRead a).1 = false ∧ outBytes (form.chars (s.stringRead a).1) (s.stringRead a).2 = .goesOn t

namespace StringForm

variable {form : StringForm} {a : Word} {s t : State}

/-- A pass of the loop ends it, for any fuel, or goes on to the next address. -/
theorem loop_cases (form : StringForm) (a : Word) (s : State) :
    (∃ r, ∀ n, form.loop (n + 1) a s = some r) ∨
    ∃ t, form.GoesOn a s t ∧ ∀ n, form.loop (n + 1) a s = form.loop n (a + 1) t := by
  cases calls : outBytes (form.chars (s.stringRead a).1) (s.stringRead a).2 with
  | ended t => exact .inl ⟨.ended t, fun n => by rw [loop, calls]⟩
  | goesOn t =>
    cases last : form.ends (s.stringRead a).1 with
    | true => exact .inl ⟨t.flush, fun n => by rw [loop, calls]; exact if_pos last⟩
    | false =>
      refine .inr ⟨t, ⟨last, calls⟩, fun n => ?_⟩
      rw [loop, calls]
      exact if_neg (Bool.not_eq_true _ ▸ last)

theorem GoesOn.eq_emitted (h : form.GoesOn a s t) :
    t = (s.stringRead a).2.emitted (form.chars (s.stringRead a).1) :=
  (eq_emitted_of_outBytes h.2).1

theorem GoesOn.cfg (h : form.GoesOn a s t) : t.cfg = s.cfg := by
  rw [h.eq_emitted, State.emitted_cfg, (s.stringRead_frame a).cfg]

/-- Going on costs a draw: a word that does not end the string has a byte. -/
theorem GoesOn.outFailAt {k : Nat} (h : form.GoesOn a s t) (draw : s.outFailAt = some k) :
    ∃ j, t.outFailAt = some j ∧ j < k := by
  have bytes : 0 < (form.chars (s.stringRead a).1).length := List.length_pos_iff.mpr (form.chars_ne_nil _ h.1)
  have read : (s.stringRead a).2.outFailAt = some k := (s.stringRead_frame a).outFailAt.trans draw
  obtain ⟨written, never | ⟨n, known, enough⟩⟩ := eq_emitted_of_outBytes h.2
  · rw [read] at never; cases never
  · rw [read] at known
    cases known
    exact ⟨k - _, by rw [written, State.emitted_outFailAt, read]; rfl, by omega⟩

/-- A loop with a measure that every word it goes on after lowers ends within that many further words. -/
theorem loop_isSome_of_measure (inv : Word → State → Prop) (measure : Word → State → Nat)
    (lowers : ∀ a s t, inv a s → form.GoesOn a s t → inv (a + 1) t ∧ measure (a + 1) t < measure a s)
    {n : Nat} (start : inv a s) (enough : measure a s < n) : (form.loop n a s).isSome := by
  induction n generalizing a s with
  | zero => exact absurd enough (Nat.not_lt_zero _)
  | succ n ih =>
    obtain ⟨r, ended⟩ | ⟨t, goesOn, next⟩ := form.loop_cases a s
    · rw [ended n]; rfl
    · obtain ⟨kept, lower⟩ := lowers a s t start goesOn
      rw [next n]
      exact ih kept (by omega)

/-! ## Fuel that is enough -/

/-- With a failing call ahead, each word the loop goes on after uses up a draw. -/
theorem loop_isSome_of_draw {k n : Nat} (draw : s.outFailAt = some k) (enough : k < n) :
    (form.loop n a s).isSome := by
  refine loop_isSome_of_measure (fun _ u => ∃ j, u.outFailAt = some j) (fun _ u => u.outFailAt.getD 0)
    (fun b u t ⟨j, known⟩ h => ?_) ⟨k, draw⟩ (by simpa [draw] using enough)
  obtain ⟨i, after, lower⟩ := h.outFailAt known
  exact ⟨⟨i, after⟩, by simpa [after, known] using lower⟩

/-- The distance up to an address, addresses wrapping, is one less from the next address. -/
theorem distance_succ {a b : Word} (h : a ≠ b) : (b - (a + 1)).toNat < (b - a).toNat := by bv_omega

/-- With intercepted reads, each pass over memory meets the status address, whose read takes a character or gives the
zero word (R39). -/
theorem loop_isSome_of_intercepts {n : Nat} (intercepts : s.cfg.trapReadIntercepts = true)
    (enough : (s.cfg.kbsrAddr - a).toNat + 65536 * s.inq.length < n) : (form.loop n a s).isSome := by
  refine loop_isSome_of_measure (fun _ u => u.cfg.trapReadIntercepts = true)
    (fun b u => (u.cfg.kbsrAddr - b).toNat + 65536 * u.inq.length) (fun b u t intercepts h => ?_) intercepts enough
  refine ⟨h.cfg ▸ intercepts, ?_⟩
  have read : u.stringRead b = u.memRead b := if_pos intercepts
  have queue : t.inq = (u.memRead b).2.inq := by rw [h.eq_emitted, read]; rfl
  rw [h.cfg, queue]
  by_cases status : b = u.cfg.kbsrAddr
  · have goes := h.1
    rw [read, status, u.memRead_kbsr] at goes
    have bound := (u.cfg.kbsrAddr - (b + 1)).isLt
    rw [status] at bound ⊢
    rw [u.memRead_kbsr]
    cases chars : u.inq with
    | nil =>
      rw [State.pollKeyboard_of_nil chars, State.stored_store, if_pos rfl, form.ends_zero] at goes
      cases goes
    | cons c rest =>
      rw [State.pollKeyboard_of_cons chars]
      simp only [State.store_inq, State.setInq_inq, List.length_cons]
      omega
  · rw [u.memRead_other status]
    exact Nat.add_lt_add_right (distance_succ status) _

/-- Without interception the loop reads one word after another, and ends at the latest at a word that ends the
string. -/
theorem loop_isSome_of_ends {n : Nat} {b : Word} (plain : s.cfg.trapReadIntercepts = false)
    (last : form.ends (s.stored b) = true) (enough : (b - a).toNat < n) : (form.loop n a s).isSome := by
  refine loop_isSome_of_measure (fun _ u => u.cfg.trapReadIntercepts = false ∧ form.ends (u.stored b) = true)
    (fun c _ => (b - c).toNat) (fun c u t ⟨plain, last⟩ h => ?_) ⟨plain, last⟩ enough
  have read : u.stringRead c = (u.stored c, u) := u.stringRead_plain c fun h => by rw [plain] at h; cases h
  have memory : t.stored b = u.stored b := by rw [h.eq_emitted, read]; rfl
  have before : c ≠ b := by
    rintro rfl
    have goes := h.1
    rw [read, last] at goes
    cases goes
  exact ⟨⟨h.cfg ▸ plain, memory ▸ last⟩, distance_succ before⟩

/-- Without interception, failing calls and a word that ends the string, the loop never ends. -/
theorem loop_eq_none_of_endless (plain : s.cfg.trapReadIntercepts = false) (never : s.outFailAt = none)
    (endless : ∀ b, form.ends (s.stored b) = false) (n : Nat) (a : Word) : form.loop n a s = none := by
  induction n generalizing a s with
  | zero => rfl
  | succ n ih =>
    have read : s.stringRead a = (s.stored a, s) := s.stringRead_plain a fun h => by rw [plain] at h; cases h
    rw [loop, read, outBytes_good (.inl never)]
    refine (if_neg (Bool.not_eq_true _ ▸ endless a)).trans (ih (s := s.emitted _) plain ?_ endless (a + 1))
    simp [never]

/-- With intercepted reads the model's fuel is enough. -/
theorem loop_stringFuel_isSome_of_intercepts (intercepts : s.cfg.trapReadIntercepts = true) :
    (form.loop (stringFuel s) a s).isSome := by
  have distance := (s.cfg.kbsrAddr - a).isLt
  refine loop_isSome_of_intercepts intercepts ?_
  rw [stringFuel]
  omega

/-- The model's fuel is enough for every loop that ends (log 8). -/
theorem loop_stringFuel_isSome {n : Nat} {r : Ran} (h : form.loop n a s = some r) :
    (form.loop (stringFuel s) a s).isSome := by
  cases intercepts : s.cfg.trapReadIntercepts with
  | true => exact loop_stringFuel_isSome_of_intercepts intercepts
  | false =>
    cases draw : s.outFailAt with
    | some k => exact loop_isSome_of_draw draw (by simp only [stringFuel, draw]; omega)
    | none =>
      by_cases terminated : ∃ b, form.ends (s.stored b) = true
      · obtain ⟨b, last⟩ := terminated
        have distance := (b - a).isLt
        exact loop_isSome_of_ends intercepts last (by rw [stringFuel]; omega)
      · have endless : ∀ b, form.ends (s.stored b) = false := by simpa using terminated
        rw [loop_eq_none_of_endless intercepts draw endless] at h
        cases h

/-- More fuel changes no loop that has ended. -/
theorem loop_mono {n m : Nat} {r : Ran} (h : form.loop n a s = some r) (hm : n ≤ m) : form.loop m a s = some r := by
  induction n generalizing m a s with
  | zero => cases h
  | succ n ih =>
    obtain ⟨m, rfl⟩ := Nat.exists_eq_add_of_le' hm
    obtain ⟨q, ended⟩ | ⟨t, -, next⟩ := form.loop_cases a s
    · rw [ended n] at h
      exact (ended (m + n)).trans h
    · rw [next n] at h
      exact (next (m + n)).trans (ih h (Nat.le_add_left n m))

/-- A loop that ends, ends alike within the model's fuel. -/
theorem loop_stringFuel {n : Nat} {r : Ran} (h : form.loop n a s = some r) : form.loop (stringFuel s) a s = some r := by
  obtain ⟨q, ended⟩ := Option.isSome_iff_exists.mp (loop_stringFuel_isSome h)
  rw [ended, ← loop_mono ended (Nat.le_max_right n _), loop_mono h (Nat.le_max_left _ _)]

end StringForm

/-! ## PUTS and PUTSP as outcomes -/

theorem exec_trapPuts (s : State) :
    exec .trapPuts s = stringOutcome (putsForm.loop (stringFuel s.link) (s.reg 0) s.link) := by
  rw [← s.link_serviceReg, ← putsLoop_eq]; rfl

theorem exec_trapPutsp (s : State) :
    exec .trapPutsp s = stringOutcome (putspForm.loop (stringFuel s.link) (s.reg 0) s.link) := by
  rw [← s.link_serviceReg, ← putspLoop_eq]; rfl

theorem stringOutcome_eq_next_iff (o : Option Ran) (t : State) :
    stringOutcome o = .next t ↔ ∃ r, o = some r ∧ r.state = t := by
  cases o <;> simp [stringOutcome, Ran.outcome]

theorem stringOutcome_eq_fault_iff (o : Option Ran) : stringOutcome o = .fault .stringNeverEnds ↔ o = none := by
  cases o <;> simp [stringOutcome, Ran.outcome]

/-- Settles O39: every word of memory goes on, so no fuel is enough. -/
theorem unterminatedStringsHang : Obligations.UnterminatedStringsHang := by
  intro s plain never
  refine ⟨fun words => ?_, fun bytes => ?_⟩
  · have endless (a : Word) : putsForm.ends (s.link.stored a) = false := decide_eq_false (words a)
    rw [exec_trapPuts, stringOutcome_eq_fault_iff]
    exact StringForm.loop_eq_none_of_endless (s := s.link) plain never endless _ _
  · have endless (a : Word) : putspForm.ends (s.link.stored a) = false := by
      obtain ⟨low, high⟩ := bytes a
      rw [loByte_eq] at low
      rw [hiByte_eq] at high
      exact decide_eq_false (not_or.mpr ⟨low, high⟩)
    rw [exec_trapPutsp, stringOutcome_eq_fault_iff]
    exact StringForm.loop_eq_none_of_endless (s := s.link) plain never endless _ _

/-! ## The loops of the rules -/

/-- A run of R107's loop is a run of the model's loop with some fuel. -/
theorem putsRuns_iff (a : Word) (s : State) (r : Ran) : PutsRuns a s r ↔ ∃ n, putsLoop n a s = some r := by
  refine ⟨fun runs => ?_, ?_⟩
  · induction runs with
    | zeroWord read zero => exact ⟨1, by simp [putsLoop, (stringReads_iff ..).mp read, zero]⟩
    | fails read word failed =>
      rw [loByte_eq] at failed
      exact ⟨1, by simp [putsLoop, (stringReads_iff ..).mp read, word, failed]⟩
    | more read word written _ ih =>
      obtain ⟨n, rest⟩ := ih
      rw [loByte_eq] at written
      exact ⟨n + 1, by simpa [putsLoop, (stringReads_iff ..).mp read, word, written] using rest⟩
  · rintro ⟨n, h⟩
    induction n generalizing a s with
    | zero => cases h
    | succ n ih =>
      have read := (stringReads_iff a s _ _).mpr (Eq.refl (s.stringRead a))
      rw [putsLoop] at h
      split at h
      case isTrue zero => cases h; exact .zeroWord read zero
      case isFalse word =>
        split at h <;> rename_i calls <;> rw [← loByte_eq] at calls
        · cases h; exact .fails read word calls
        · exact .more read word calls (ih _ _ h)

/-- A run of R109's loop is a run of the model's loop with some fuel. -/
theorem putspRuns_iff (a : Word) (s : State) (r : Ran) : PutspRuns a s r ↔ ∃ n, putspLoop n a s = some r := by
  refine ⟨fun runs => ?_, ?_⟩
  · induction runs with
    | zeroLow read zero =>
      rw [loByte_eq] at zero
      exact ⟨1, by simp [putspLoop, (stringReads_iff ..).mp read, zero]⟩
    | failsLow read low failed =>
      rw [loByte_eq] at low failed
      exact ⟨1, by simp [putspLoop, (stringReads_iff ..).mp read, low, failed]⟩
    | zeroHigh read low written zero =>
      rw [loByte_eq] at low written
      rw [hiByte_eq] at zero
      exact ⟨1, by simp [putspLoop, (stringReads_iff ..).mp read, low, written, zero]⟩
    | failsHigh read low written high failed =>
      rw [loByte_eq] at low written
      rw [hiByte_eq] at high failed
      exact ⟨1, by simp [putspLoop, (stringReads_iff ..).mp read, low, written, high, failed]⟩
    | more read low written high written' _ ih =>
      obtain ⟨n, rest⟩ := ih
      rw [loByte_eq] at low written
      rw [hiByte_eq] at high written'
      exact ⟨n + 1, by
        simpa [putspLoop, (stringReads_iff ..).mp read, low, written, high, written'] using rest⟩
  · rintro ⟨n, h⟩
    induction n generalizing a s with
    | zero => cases h
    | succ n ih =>
      have read := (stringReads_iff a s _ _).mpr (Eq.refl (s.stringRead a))
      rw [putspLoop] at h
      simp only [← loByte_eq, ← hiByte_eq] at h
      split at h
      case isTrue zero => cases h; exact .zeroLow read zero
      case isFalse low =>
        split at h
        case h_1 failed => cases h; exact .failsLow read low failed
        case h_2 written =>
          split at h
          case isTrue zero => cases h; exact .zeroHigh read low written zero
          case isFalse high =>
            split at h
            case h_1 failed => cases h; exact .failsHigh read low written high failed
            case h_2 written' => exact .more read low written high written' (ih _ _ h)

/-- A loop that is described by its runs with some fuel is described by the model's outcome. -/
theorem StringForm.outcome_refines {form : StringForm} {a : Word} {s : State} {runs : Ran → Prop}
    (describes : ∀ r, runs r ↔ ∃ n, form.loop n a s = some r) :
    (∀ t, stringOutcome (form.loop (stringFuel s) a s) = .next t ↔ ∃ r, runs r ∧ r.state = t) ∧
    (stringOutcome (form.loop (stringFuel s) a s) = .fault .stringNeverEnds ↔ ¬ ∃ r, runs r) := by
  have fuel (r : Ran) : runs r ↔ form.loop (stringFuel s) a s = some r :=
    (describes r).trans ⟨fun ⟨_, h⟩ => loop_stringFuel h, fun h => ⟨_, h⟩⟩
  simp only [fuel]
  refine ⟨stringOutcome_eq_next_iff _, (stringOutcome_eq_fault_iff _).trans ?_⟩
  rw [Option.eq_none_iff_forall_ne_some, not_exists]

/-- Settles O37: the loop of the rule is described by `putsRuns_iff`. -/
theorem putsRefinesItsLoop : Obligations.PutsRefinesItsLoop := by
  intro s
  rw [exec_trapPuts]
  exact StringForm.outcome_refines fun r => by simp only [putsRuns_iff, putsLoop_eq]

/-- Settles O38: the loop of the rule is described by `putspRuns_iff`. -/
theorem putspRefinesItsLoop : Obligations.PutspRefinesItsLoop := by
  intro s
  rw [exec_trapPutsp]
  exact StringForm.outcome_refines fun r => by simp only [putspRuns_iff, putspLoop_eq]

/-! ## Terminated strings -/

/-- The bytes of the words at `k` successive addresses. -/
def StringForm.charsFrom (form : StringForm) (s : State) (a : Word) (k : Nat) : List Byte :=
  (List.range k).flatMap fun j => form.chars (s.stored (a + BitVec.ofNat 16 j))

theorem add_ofNat_succ (a : Word) (j : Nat) : a + BitVec.ofNat 16 (j + 1) = a + 1 + BitVec.ofNat 16 j := by
  rw [BitVec.ofNat_add, BitVec.add_comm (BitVec.ofNat 16 j), ← BitVec.add_assoc]; rfl

theorem StringForm.charsFrom_succ (form : StringForm) (s : State) (a : Word) (k : Nat) :
    form.charsFrom s a (k + 1) = form.chars (s.stored a) ++ form.charsFrom s (a + 1) k := by
  rw [charsFrom, charsFrom, List.range_succ_eq_map, List.flatMap_cons, List.flatMap_map, BitVec.add_zero]
  simp only [Nat.succ_eq_add_one, add_ofNat_succ]

theorem writeOut_append (bs cs : List Byte) (s : State) :
    writeOut (bs ++ cs) s = (outBytes bs s).andThen (writeOut cs) := by
  induction bs generalizing s with
  | nil => rfl
  | cons b bs ih =>
    have first (ds : List Byte) : writeOut (b :: ds) s = (s.outByte b).andThen (writeOut ds) := by
      rw [writeOut, outBytes]
      cases s.outByte b <;> rfl
    rw [List.cons_append, first, outBytes]
    cases s.outByte b with
    | ended t => rfl
    | goesOn t => exact ih t

/-- A string of `k` words that go on and one that ends, none of them a polled KBSR, is one `writeOut` of its bytes,
whatever the draws. -/
theorem StringForm.loop_of_plain (form : StringForm) {k : Nat} {a : Word} {s : State}
    (goOn : ∀ j, j < k → form.ends (s.stored (a + BitVec.ofNat 16 j)) = false)
    (last : form.ends (s.stored (a + BitVec.ofNat 16 k)) = true)
    (plain : s.cfg.trapReadIntercepts = true → ∀ j, j ≤ k → a + BitVec.ofNat 16 j ≠ s.cfg.kbsrAddr) :
    form.loop (k + 1) a s = some (writeOut (form.charsFrom s a (k + 1)) s) := by
  induction k generalizing a s with
  | zero =>
    rw [BitVec.add_zero] at last
    have read : s.stringRead a = (s.stored a, s) := s.stringRead_plain a fun h => by
      simpa using plain h 0 (Nat.le_refl 0)
    rw [loop, read, charsFrom_succ, charsFrom, List.range_zero, List.flatMap_nil, List.append_nil, writeOut]
    cases outBytes (form.chars (s.stored a)) s with
    | ended t => rfl
    | goesOn t => exact if_pos last
  | succ k ih =>
    have first := goOn 0 (Nat.succ_pos k)
    rw [BitVec.add_zero] at first
    have read : s.stringRead a = (s.stored a, s) := s.stringRead_plain a fun h => by
      simpa using plain h 0 (Nat.zero_le _)
    rw [loop, read, charsFrom_succ, writeOut_append]
    cases calls : outBytes (form.chars (s.stored a)) s with
    | ended t => rfl
    | goesOn t =>
      obtain ⟨rfl, -⟩ := eq_emitted_of_outBytes calls
      refine (if_neg (Bool.not_eq_true _ ▸ first)).trans (ih (s := s.emitted _) ?_ ?_ ?_)
      · exact fun j hj => add_ofNat_succ a j ▸ goOn (j + 1) (Nat.succ_lt_succ hj)
      · exact add_ofNat_succ a k ▸ last
      · exact fun h j hj => add_ofNat_succ a j ▸ plain h (j + 1) (Nat.succ_le_succ hj)

/-- The bytes of a string whose last word is the one after `k` others. -/
theorem StringForm.charsFrom_last (form : StringForm) (s : State) (a : Word) (k : Nat) :
    form.charsFrom s a (k + 1) = form.charsFrom s a k ++ form.chars (s.stored (a + BitVec.ofNat 16 k)) := by
  rw [charsFrom, charsFrom, List.range_succ, List.flatMap_append, List.flatMap_singleton]

/-- The bytes of a string for PUTS: the low ones, none for the zero word (R107). -/
theorem putsForm_charsFrom {s : State} {a : Word} {k : Nat}
    (words : ∀ j, j < k → s.stored (a + BitVec.ofNat 16 j) ≠ 0#16) (last : s.stored (a + BitVec.ofNat 16 k) = 0#16) :
    putsForm.charsFrom s a (k + 1) =
      (List.range k).map fun j => (s.stored (a + BitVec.ofNat 16 j)).setWidth 8 := by
  have none : putsForm.chars (s.stored (a + BitVec.ofNat 16 k)) = [] := if_pos last
  rw [StringForm.charsFrom_last, none, List.append_nil, StringForm.charsFrom, List.map_eq_flatMap]
  refine List.flatMap_congr fun j hj => ?_
  rw [← lowByte_eq]
  exact if_neg (words j (List.mem_range.mp hj))

/-- The bytes of a string for PUTSP: both of each word but the last, and there the low one if it is not zero (R109). -/
theorem putspForm_charsFrom {s : State} {a : Word} {k : Nat}
    (words : ∀ j, j < k → loByte (s.stored (a + BitVec.ofNat 16 j)) ≠ 0#8 ∧
      hiByte (s.stored (a + BitVec.ofNat 16 j)) ≠ 0#8)
    (last : loByte (s.stored (a + BitVec.ofNat 16 k)) = 0#8 ∨ hiByte (s.stored (a + BitVec.ofNat 16 k)) = 0#8) :
    putspForm.charsFrom s a (k + 1) =
      (List.range k).flatMap (fun j =>
          [loByte (s.stored (a + BitVec.ofNat 16 j)), hiByte (s.stored (a + BitVec.ofNat 16 j))]) ++
        (if loByte (s.stored (a + BitVec.ofNat 16 k)) = 0#8 then []
          else [loByte (s.stored (a + BitVec.ofNat 16 k))]) := by
  simp only [loByte_eq, hiByte_eq] at words last ⊢
  rw [StringForm.charsFrom_last]
  congr 1
  · refine List.flatMap_congr fun j hj => ?_
    obtain ⟨low, high⟩ := words j (List.mem_range.mp hj)
    simp [putspForm, low, high]
  · by_cases low : lowByte (s.stored (a + BitVec.ofNat 16 k)) = 0#8
    · simp [putspForm, low]
    · simp [putspForm, low, last.resolve_left low]

/-- With good draws for the bytes and the flush, such a string leaves its bytes written. -/
theorem StringForm.outcome_of_plain (form : StringForm) {s : State} {a : Word} {k : Nat}
    (goOn : ∀ j, j < k → form.ends (s.stored (a + BitVec.ofNat 16 j)) = false)
    (last : form.ends (s.stored (a + BitVec.ofNat 16 k)) = true)
    (plain : s.cfg.trapReadIntercepts = true → ∀ j, j ≤ k → a + BitVec.ofNat 16 j ≠ s.cfg.kbsrAddr)
    (good : OutputGood ((form.charsFrom s a (k + 1)).length + 1) s) :
    stringOutcome (form.loop (stringFuel s) a s) = .next (s.written (form.charsFrom s a (k + 1))) := by
  rw [loop_stringFuel (form.loop_of_plain goOn last plain), writeOut_good good]
  rfl

/-- Settles O35: the string is one `writeOut` of its bytes, one draw for each and one for the flush. -/
theorem putsWritesString : Obligations.PutsWritesString := by
  intro s k words last plain good
  have bytes := putsForm_charsFrom words last
  have draws : OutputGood ((putsForm.charsFrom s (s.reg 0) (k + 1)).length + 1) s := by
    rw [bytes, List.length_map, List.length_range]
    exact good
  obtain ⟨link, regs, pc, cond, memory, input, cfg⟩ :=
    (s.link.written_frame (putsForm.charsFrom s (s.reg 0) (k + 1))).claims
  have run := putsForm.outcome_of_plain (s := s.link) (fun j hj => decide_eq_false (words j hj)) (decide_eq_true last)
    plain draws
  exact ⟨_, (exec_trapPuts s).trans run, congrArg (s.out ++ ·) bytes, rfl, link, regs, pc, cond, memory,
    input, rfl, rfl, cfg⟩

/-- Settles O36: the string is one `writeOut` of its bytes, at most two draws for each word and one for the flush. -/
theorem putspWritesPackedString : Obligations.PutspWritesPackedString := by
  intro s k words last plain good
  have bytes := putspForm_charsFrom words last
  have draws : OutputGood ((putspForm.charsFrom s (s.reg 0) (k + 1)).length + 1) s := by
    refine good.mono ?_
    rw [bytes, List.length_append, List.length_flatMap]
    split <;> simp <;> omega
  obtain ⟨link, regs, pc, cond, memory, input, cfg⟩ :=
    (s.link.written_frame (putspForm.charsFrom s (s.reg 0) (k + 1))).claims
  simp only [loByte_eq, hiByte_eq] at words last
  have run := putspForm.outcome_of_plain (s := s.link) (fun j hj => decide_eq_false (not_or.mpr (words j hj)))
    (decide_eq_true last) plain draws
  exact ⟨_, (exec_trapPutsp s).trans run, (congrArg (s.out ++ ·) bytes).trans (List.append_assoc ..).symm, rfl, link,
    regs, pc, cond, memory, input, rfl, rfl, cfg⟩

end Sys2Proof.Machine

/-! PROOFS. What a service, an instruction and a step can do, each said once; and the rules about all instructions that
follow (spec/10_state.md R20 to R33; spec/40_fetch_decode_dispatch.md R77 to R83; spec/44_trap.md R103 to R113;
spec/60_exceptions.md R114 to R119). -/

namespace Sys2Proof.Machine

/-! ## What no instruction does to memory and the streams -/

/-- What every instruction keeps: input is consumed from the front and output written at the end, the host's side and
the parameters are as before, no more is visible than written, and memory keeps its form (R33, R58). -/
structure State.StreamFrame (s t : State) : Prop where
  stop : t.stop = s.stop
  host : t.host = s.host
  cfg : t.cfg = s.cfg
  inq : t.inq <:+ s.inq
  out : s.out <+: t.out
  flushed : s.flushed ≤ s.out.length → t.flushed ≤ t.out.length
  wf : s.mem.wf = true → t.mem.wf = true

theorem State.CallFrame.streams {s t : State} (h : s.CallFrame t) : s.StreamFrame t :=
  ⟨h.stop, h.host, h.cfg, h.inq, h.out, h.flushed, h.wf⟩

theorem State.StreamFrame.trans {s t u : State} (h : s.StreamFrame t) (k : t.StreamFrame u) : s.StreamFrame u where
  stop := k.stop.trans h.stop
  host := k.host.trans h.host
  cfg := k.cfg.trans h.cfg
  inq := k.inq.trans h.inq
  out := h.out.trans k.out
  flushed := k.flushed ∘ h.flushed
  wf := k.wf ∘ h.wf

/-- The invariant after anything that keeps the streams (R30, R33, R112). -/
theorem State.StreamFrame.inv {s t : State} (h : s.StreamFrame t) (inv : s.Inv)
    (waiting : t.wait = .ready ∨ t.run = .running) : t.Inv :=
  ⟨h.wf inv.memory, h.flushed inv.visible, waiting⟩

/-- Taking characters from the front of `inq` (R32). -/
theorem State.setInq_frame {s : State} {rest : List Byte} (h : rest <:+ s.inq) : s.CallFrame (s.setInq rest) :=
  { State.CallFrame.refl s with inq := h }

/-! ## What a service leaves -/

/-- GETC and IN read a character; no other service does (R105, R108). -/
def readsInput : Service → Bool
  | .getc => true
  | .input => true
  | .out => false
  | .puts => false
  | .putsp => false
  | .halt => false

/-- What a service can leave: it completes, a call of an output service fails, a reading service takes its character
or waits for it, or HALT ends the run. -/
inductive ServiceLeaves (s : State) (w : Service) : State → Prop where
  | completes {t : State} : readsInput w = false → s.CallFrame t → t.run = s.run → t.wait = s.wait → ServiceLeaves s w t
  | fails {t : State} : w ≠ .getc → s.CallFrame t → t.run = .halted .outputFailure → t.wait = .ready →
      s.outFailAt ≠ none → ServiceLeaves s w t
  | takes {u : State} {c : Byte} : readsInput w = true → s.CallFrame u → u.run = s.run → u.wait = s.wait →
      ServiceLeaves s w (u.takeCharacter c)
  | waits {u : State} {x : Wait} : readsInput w = true → s.CallFrame u → u.run = s.run → x ≠ .ready →
      ServiceLeaves s w (u.setWait x)
  | halts {u : State} : w = .halt → s.CallFrame u → ServiceLeaves s w (u.haltWith .halt)

/-- A service whose calls may all succeed or one fail, with nothing after them. -/
theorem ServiceLeaves.of_calls {s t : State} {w : Service} (writes : readsInput w = false) (calls : s.CallFrame t) :
    ServiceLeaves s w t := by
  obtain ⟨run, wait⟩ | ⟨run, wait, draw⟩ := calls.run
  · exact .completes writes calls run wait
  · exact .fails (by rintro rfl; cases writes) calls run wait draw

/-- A service may start with calls that succeed. -/
theorem ServiceLeaves.after {s u t : State} {w : Service} (calls : s.CallFrame u) (run : u.run = s.run)
    (wait : u.wait = s.wait) (h : ServiceLeaves u w t) : ServiceLeaves s w t := by
  cases h with
  | completes writes f r x => exact .completes writes (calls.trans f) (r.trans run) (x.trans wait)
  | fails w f r x draw => exact .fails w (calls.trans f) r x fun never => draw (calls.fails never)
  | takes reads f r x => exact .takes reads (calls.trans f) (r.trans run) (x.trans wait)
  | waits reads f r x => exact .waits reads (calls.trans f) (r.trans run) x
  | halts w f => exact .halts w (calls.trans f)

theorem serviceGetc_leaves (s : State) : ServiceLeaves s .getc (serviceGetc s) := by
  obtain ⟨-, e⟩ | ⟨c, rest, queue, e⟩ := serviceGetc_cases s <;> rw [e]
  · exact .waits rfl (.refl s) rfl (by decide)
  · exact .takes rfl (State.setInq_frame (queue ▸ List.suffix_cons c rest)) rfl rfl

/-- A service that starts with output calls: one of them fails, or the rest of the service follows. -/
theorem ServiceLeaves.of_outputRan {s : State} {w : Service} {r : Ran} {f : State → Ran} (writes : w ≠ .getc)
    (calls : s.OutputRan r)
    (rest : ∀ u : State, s.OutFrame u → u.run = s.run → u.wait = s.wait → ServiceLeaves s w (f u).state) :
    ServiceLeaves s w (r.andThen f).state := by
  cases calls with
  | ended frame run wait draw => exact .fails writes frame.call run wait draw
  | goesOn frame run wait => exact rest _ frame run wait

theorem echoCharacter_leaves (c : Byte) (s : State) : ServiceLeaves s .input (echoCharacter c s).state :=
  .of_outputRan (by decide) (echoCalls_ran c s) fun _ frame run wait => .takes rfl frame.call run wait

theorem inputFromRead_leaves (s : State) : ServiceLeaves s .input (inputFromRead s).state := by
  obtain ⟨-, e⟩ | ⟨c, rest, queue, e⟩ := inputFromRead_cases s <;> rw [e]
  · exact .waits rfl (.refl s) rfl (by decide)
  · have read : s.CallFrame (s.setInq rest) := State.setInq_frame (queue ▸ List.suffix_cons c rest)
    exact (echoCharacter_leaves c (s.setInq rest)).after read rfl rfl

theorem serviceIn_leaves (s : State) : ServiceLeaves s .input (serviceIn s).state :=
  .of_outputRan (by decide) (promptCalls_ran s) fun u frame run wait =>
    (inputFromRead_leaves u).after frame.call run wait

theorem serviceHalt_leaves (s : State) : ServiceLeaves s .halt (serviceHalt s).state :=
  .of_outputRan (by decide) (haltCalls_ran s) fun _ frame _ _ => .halts rfl frame.call

/-- Every next state of a service (R103 to R113). -/
theorem serviceOutcome_leaves {w : Service} {s t : State} (h : serviceOutcome w s = .next t) : ServiceLeaves s w t := by
  cases w with
  | getc => cases h; exact serviceGetc_leaves s
  | out => cases h; exact .of_calls rfl (State.OutFrame.andThen (s.outByte_frame _) State.flush_frame).call
  | puts =>
    obtain ⟨r, loop, rfl⟩ := (stringOutcome_eq_next_iff _ _).mp h
    exact .of_calls rfl (putsLoop_frame loop)
  | input => cases h; exact serviceIn_leaves s
  | putsp =>
    obtain ⟨r, loop, rfl⟩ := (stringOutcome_eq_next_iff _ _).mp h
    exact .of_calls rfl (putspLoop_frame loop)
  | halt => cases h; exact serviceHalt_leaves s

/-! ## What follows for a service -/

namespace ServiceLeaves

variable {s t : State} {w : Service}

theorem streams (h : ServiceLeaves s w t) : s.StreamFrame t := by
  cases h with
  | completes _ f | fails _ f | takes _ f | waits _ f | halts _ f =>
    exact ⟨f.stop, f.host, f.cfg, f.inq, f.out, f.flushed, f.wf⟩

/-- No service writes pc (R103, R124). -/
theorem pc (h : ServiceLeaves s w t) : t.pc = s.pc := by
  cases h with
  | completes _ f | fails _ f | takes _ f | waits _ f | halts _ f => exact f.pc

/-- A service changes no word of memory but the keyboard's (R39). -/
theorem memory (h : ServiceLeaves s w t) (a : Word) (notKbsr : a ≠ s.cfg.kbsrAddr) (notKbdr : a ≠ s.cfg.kbdrAddr) :
    t.stored a = s.stored a := by
  cases h with
  | completes _ f | fails _ f | takes _ f | waits _ f | halts _ f => exact f.mem a notKbsr notKbdr

/-- A reading service writes R0 at most, and no other service writes a register (R20). -/
theorem regs (h : ServiceLeaves s w t) : SameRegsBut (if readsInput w then [serviceReg] else []) s t := by
  cases h with
  | completes _ f | fails _ f | waits _ f | halts _ f => exact fun r _ => State.reg_congr f.regs r
  | @takes u c reads f =>
    obtain ⟨-, -, regs, -⟩ := u.takeCharacter_spec c
    rw [if_pos reads]
    exact fun r hr => (regs r hr).trans (State.reg_congr f.regs r)

/-- A service that reads no character leaves the flag (R27). -/
theorem cond (h : ServiceLeaves s w t) (writes : readsInput w = false) : t.cond = s.cond := by
  cases h with
  | completes _ f | fails _ f | waits _ f | halts _ f => exact f.cond
  | takes reads => exact absurd (reads.symm.trans writes) (by decide)

/-- A reading service that completes leaves the flag of R0 (R105, R108). -/
theorem flag (h : ServiceLeaves s w t) (reads : readsInput w = true) (running : t.run = .running)
    (ready : t.wait = .ready) : FlagOf (t.reg serviceReg) t.cond := by
  cases h with
  | completes writes => exact absurd (reads.symm.trans writes) (by decide)
  | fails _ _ failed => exact absurd (running.symm.trans failed) (by decide)
  | @takes u c =>
    obtain ⟨-, flag, -⟩ := u.takeCharacter_spec c
    exact flag
  | waits _ _ _ waits => exact absurd ready waits
  | halts => cases running

/-- How a service leaves the run state: HALT may end the run, and so may a failing output call (R110, R116). -/
theorem run (h : ServiceLeaves s w t) :
    t.run = s.run ∨ (t.run = .halted .halt ∧ w = .halt) ∨ (t.run = .halted .outputFailure ∧ s.outFailAt ≠ none) := by
  cases h with
  | completes _ _ run | takes _ _ run | waits _ _ run => exact .inl run
  | fails _ _ run _ draw => exact .inr (.inr ⟨run, draw⟩)
  | halts halt => exact .inr (.inl ⟨rfl, halt⟩)

/-- After a service no service waits, or the run goes on (R112). -/
theorem waiting (h : ServiceLeaves s w t) (running : s.run = .running) :
    t.wait = .ready ∨ t.run = .running := by
  cases h with
  | completes _ _ run | takes _ _ run | waits _ _ run => exact .inr (run.trans running)
  | fails _ _ _ wait => exact .inl wait
  | halts => exact .inl rfl

/-- An output failure is a failed call, with nothing after it (R113). -/
theorem failed (h : ServiceLeaves s w t) (running : s.run = .running) (failure : t.run = .halted .outputFailure) :
    w ≠ .getc ∧ s.CallFrame t ∧ t.wait = .ready ∧ s.outFailAt ≠ none := by
  cases h with
  | completes _ _ run | takes _ _ run | waits _ _ run =>
    exact absurd ((run.trans running).symm.trans failure) (by decide)
  | fails writes f _ wait draw => exact ⟨writes, f, wait, draw⟩
  | halts => cases failure

end ServiceLeaves

/-! ## What an instruction leaves -/

/-- What an instruction can leave: a result in its destination, after its reads; a stored word, after its read; a
transfer of control or an InvalidOpcode, alone or after the link; or what its service leaves, after the link. -/
inductive ExecLeaves (i : Instr) (s : State) : State → Prop where
  | result {dr : Reg} {v : Word} {u : State} : flagDest i = some dr → regWrites i = [dr] → s.ReadFrame u →
      ExecLeaves i s (u.writeResult dr v)
  | store {a v : Word} {u : State} : storesToMemory i = true → flagDest i = none → s.ReadFrame u →
      ExecLeaves i s (u.store a v)
  | jump {a : Word} {rs : Vector Word 8} : transfersControl i = true → flagDest i = none →
      SameRegsBut (regWrites i) s { s with regs := rs } → ExecLeaves i s ({ s with regs := rs }.setPc a)
  | invalid {rs : Vector Word 8} : isInvalid i = true → flagDest i = none →
      SameRegsBut (regWrites i) s { s with regs := rs } →
      ExecLeaves i s ({ s with regs := rs }.haltWith (.invalidOpcode (s.pc - 1) (encode i)))
  | service {w : Service} {t : State} : serviceRun i = some w → ServiceLeaves s.link w t → ExecLeaves i s t

/-- The meaning of an instruction that runs a service (R103). -/
theorem exec_of_serviceRun {i : Instr} {w : Service} (h : serviceRun i = some w) (s : State) :
    exec i s = serviceOutcome w s.link := by
  cases i with
  | trap high v => exact exec_trap_of_service high s h
  | trapGetc | trapOut | trapPuts | trapIn | trapPutsp | trapHalt => cases h; rfl
  | _ => cases h

/-- The meaning of an instruction that runs no service: it always has a next state. -/
theorem exec_of_no_service {i : Instr} (h : serviceRun i = none) (s : State) :
    ∃ t, exec i s = .next t ∧ ExecLeaves i s t := by
  cases i with
  | br n z p off9 => exact ⟨_, exec_br n z p off9 s, .jump rfl rfl fun _ _ => rfl⟩
  | addReg dr sr1 sr2 => exact ⟨_, exec_addReg dr sr1 sr2 s, .result rfl rfl (.refl s)⟩
  | addImm dr sr1 imm5 => exact ⟨_, exec_addImm dr sr1 imm5 s, .result rfl rfl (.refl s)⟩
  | ld dr off9 => exact ⟨_, exec_ld dr off9 s, .result rfl rfl (s.memRead_frame _)⟩
  | st sr off9 => exact ⟨_, exec_st sr off9 s, .store rfl rfl (.refl s)⟩
  | jsrr baseR => exact ⟨_, exec_jsrr baseR s, .jump rfl rfl s.sameRegsBut_link⟩
  | jsr off11 => exact ⟨_, exec_jsr off11 s, .jump rfl rfl s.sameRegsBut_link⟩
  | andReg dr sr1 sr2 => exact ⟨_, exec_andReg dr sr1 sr2 s, .result rfl rfl (.refl s)⟩
  | andImm dr sr1 imm5 => exact ⟨_, exec_andImm dr sr1 imm5 s, .result rfl rfl (.refl s)⟩
  | ldr dr baseR off6 => exact ⟨_, exec_ldr dr baseR off6 s, .result rfl rfl (s.memRead_frame _)⟩
  | str sr baseR off6 => exact ⟨_, exec_str sr baseR off6 s, .store rfl rfl (.refl s)⟩
  | opcode8 low => exact ⟨_, exec_opcode8 low s, .invalid rfl rfl fun _ _ => rfl⟩
  | notReg dr sr => exact ⟨_, exec_notReg dr sr s, .result rfl rfl (.refl s)⟩
  | ldi dr off9 => exact ⟨_, exec_ldi dr off9 s, .result rfl rfl ((s.memRead_frame _).trans (State.memRead_frame _ _))⟩
  | sti sr off9 => exact ⟨_, exec_sti sr off9 s, .store rfl rfl (s.memRead_frame _)⟩
  | jmp baseR => exact ⟨_, exec_jmp baseR s, .jump rfl rfl fun _ _ => rfl⟩
  | opcode13 low => exact ⟨_, exec_opcode13 low s, .invalid rfl rfl fun _ _ => rfl⟩
  | lea dr off9 => exact ⟨_, exec_lea dr off9 s, .result rfl rfl (.refl s)⟩
  | trap high v =>
    have noService : serviceOf v = none := h
    exact ⟨_, (exec_trap_of_none high s noService).trans (exec_trapUndefined high v s),
      .invalid (i := .trap high v) (Option.isNone_iff_eq_none.mpr noService) (by simp [flagDest, noService])
        (s.sameRegsBut_link.mono (show [7] ⊆ [linkReg, serviceReg] by decide))⟩
  | trapUndefined high v => exact ⟨_, exec_trapUndefined high v s, .invalid rfl rfl s.sameRegsBut_link⟩
  | trapGetc | trapOut | trapPuts | trapIn | trapPutsp | trapHalt => cases h

/-- Every next state of an instruction. -/
theorem exec_leaves {i : Instr} {s t : State} (h : exec i s = .next t) : ExecLeaves i s t := by
  cases service : serviceRun i with
  | some w =>
    rw [exec_of_serviceRun service] at h
    exact .service service (serviceOutcome_leaves h)
  | none =>
    obtain ⟨u, run, leaves⟩ := exec_of_no_service service s
    rw [run] at h
    cases h
    exact leaves

/-! ## Which instruction runs which service -/

/-- An instruction that runs a service may write R7, and R0 if the service reads a character (R20). -/
theorem subset_regWrites {i : Instr} {w : Service} (h : serviceRun i = some w) :
    (if readsInput w then [serviceReg] else []) ++ [linkReg] ⊆ regWrites i := by
  cases i with
  | trap high v =>
    change _ ⊆ [linkReg, serviceReg]
    cases w <;> decide
  | trapGetc | trapOut | trapPuts | trapIn | trapPutsp | trapHalt => cases h; decide
  | _ => cases h

/-- The destination of an instruction that runs a service is R0 if the service reads a character (R27). -/
theorem flagDest_of_serviceRun {i : Instr} {w : Service} (h : serviceRun i = some w) :
    flagDest i = if readsInput w then some serviceReg else none := by
  cases i with
  | trap high v =>
    have service : serviceOf v = some w := h
    cases w <;> simp [flagDest, readsInput, service]
  | trapGetc | trapOut | trapPuts | trapIn | trapPutsp | trapHalt => cases h; rfl
  | _ => cases h

/-! ## Rules about all instructions -/

namespace ExecLeaves

variable {i : Instr} {s t : State}

theorem regs (h : ExecLeaves i s t) : SameRegsBut (regWrites i) s t := by
  cases h with
  | @result dr v u _ writes f =>
    obtain ⟨⟨-, -, regs, -⟩, -⟩ := u.writeResult_spec dr v
    exact writes ▸ fun r hr => (regs r hr).trans (State.reg_congr f.regs r)
  | store _ _ f => exact fun r _ => State.reg_congr f.regs r
  | jump _ _ regs | invalid _ _ regs => exact regs
  | service runs leaves => exact (s.sameRegsBut_link.append leaves.regs).mono (subset_regWrites runs)

theorem pc (h : ExecLeaves i s t) (noTransfer : transfersControl i = false) : t.pc = s.pc := by
  cases h with
  | result _ _ f | store _ _ f => exact f.pc
  | jump transfers => exact absurd (transfers.symm.trans noTransfer) (by decide)
  | invalid => rfl
  | service _ leaves => exact leaves.pc

theorem memory (h : ExecLeaves i s t) (noStore : storesToMemory i = false) (a : Word)
    (notKbsr : a ≠ s.cfg.kbsrAddr) (notKbdr : a ≠ s.cfg.kbdrAddr) : t.stored a = s.stored a := by
  cases h with
  | @result dr v u _ _ f =>
    obtain ⟨-, outside, -⟩ := u.writeResult_spec dr v
    exact (outside a).trans (f.mem a notKbsr notKbdr)
  | store stores => exact absurd (stores.symm.trans noStore) (by decide)
  | jump | invalid => rfl
  | service _ leaves => exact leaves.memory a notKbsr notKbdr

theorem cond (h : ExecLeaves i s t) (noFlags : flagDest i = none) : t.cond = s.cond := by
  cases h with
  | result dest => rw [dest] at noFlags; cases noFlags
  | store _ _ f => exact f.cond
  | jump | invalid => rfl
  | @service w _ runs leaves =>
    refine leaves.cond ?_
    cases reads : readsInput w with
    | false => rfl
    | true => rw [flagDest_of_serviceRun runs, if_pos reads] at noFlags; cases noFlags

theorem flag {dr : Reg} (h : ExecLeaves i s t) (dest : flagDest i = some dr) (running : t.run = .running)
    (ready : t.wait = .ready) : FlagOf (t.reg dr) t.cond := by
  cases h with
  | @result dr' v u own =>
    obtain rfl : dr' = dr := Option.some.inj (own.symm.trans dest)
    obtain ⟨⟨result, flag, -⟩, -⟩ := u.writeResult_spec dr' v
    exact result.symm ▸ flag
  | store _ none | jump _ none | invalid _ none => rw [dest] at none; cases none
  | @service w _ runs leaves =>
    rw [flagDest_of_serviceRun runs] at dest
    split at dest
    case isTrue reads => cases dest; exact leaves.flag reads running ready
    case isFalse => cases dest

theorem streams (h : ExecLeaves i s t) : s.StreamFrame t := by
  cases h with
  | result _ _ f => exact ⟨f.stop, f.host, f.cfg, f.inq, f.call.out, f.call.flushed, f.wf⟩
  | @store a v u _ _ f =>
    exact ⟨f.stop, f.host, f.cfg, f.inq, f.call.out, f.call.flushed, fun wf => u.store_wf a v (f.wf wf)⟩
  | jump | invalid => exact ⟨rfl, rfl, rfl, List.suffix_refl _, List.prefix_refl _, id, id⟩
  | service _ leaves =>
    have f := leaves.streams
    exact ⟨f.stop, f.host, f.cfg, f.inq, f.out, f.flushed, f.wf⟩

/-- How an instruction leaves the run state (R83, R115). -/
theorem run (h : ExecLeaves i s t) :
    t.run = s.run ∨ (t.run = .halted .halt ∧ serviceRun i = some .halt) ∨
    (t.run = .halted .outputFailure ∧ s.outFailAt ≠ none) ∨
    (t.run = .halted (.invalidOpcode (s.pc - 1) (encode i)) ∧ isInvalid i = true) := by
  cases h with
  | result _ _ f | store _ _ f => exact .inl f.run
  | jump => exact .inl rfl
  | invalid isInvalid => exact .inr (.inr (.inr ⟨rfl, isInvalid⟩))
  | service runs leaves =>
    obtain run | ⟨run, rfl⟩ | failed := leaves.run
    · exact .inl run
    · exact .inr (.inl ⟨run, runs⟩)
    · exact .inr (.inr (.inl failed))

/-- After an instruction that was not a suspended service, no service waits or the run goes on (R112). -/
theorem waiting (h : ExecLeaves i s t) (running : s.run = .running) (ready : s.wait = .ready) :
    t.wait = .ready ∨ t.run = .running := by
  cases h with
  | result _ _ f | store _ _ f => exact .inl (f.wait.trans ready)
  | jump => exact .inl ready
  | invalid => exact .inl rfl
  | service _ leaves => exact leaves.waiting running

end ExecLeaves

/-- Settles O52: what an instruction leaves in the registers. -/
theorem onlyNamedRegistersWritten : Obligations.OnlyNamedRegistersWritten := fun _ _ _ h => (exec_leaves h).regs

/-- Settles O53: what an instruction leaves in pc. -/
theorem onlyTransfersWritePc : Obligations.OnlyTransfersWritePc := fun _ _ _ h => (exec_leaves h).pc

/-- Settles O54: what an instruction leaves in the flag. -/
theorem flagsFollowDestination : Obligations.FlagsFollowDestination := fun _ _ _ _ _ h =>
  ⟨(exec_leaves h).cond, fun _ => (exec_leaves h).flag⟩

/-- Settles O56: what an instruction leaves in memory. -/
theorem onlyStoresChangeMemory : Obligations.OnlyStoresChangeMemory := fun _ _ _ h => (exec_leaves h).memory

/-- An invalid instruction ends the run with its word (R115). -/
theorem exec_of_isInvalid {i : Instr} (h : isInvalid i = true) (s : State) :
    ∃ t, exec i s = .next t ∧ t.run = .halted (.invalidOpcode (s.pc - 1) (encode i)) := by
  cases i with
  | opcode8 low => exact ⟨_, exec_opcode8 low s, rfl⟩
  | opcode13 low => exact ⟨_, exec_opcode13 low s, rfl⟩
  | trapUndefined high v => exact ⟨_, exec_trapUndefined high v s, rfl⟩
  | trap high v =>
    exact ⟨_, (exec_trap_of_none high s (Option.isNone_iff_eq_none.mp h)).trans (exec_trapUndefined high v s), rfl⟩
  | _ => cases h

/-- Settles O57: no other way of leaving the run state records an InvalidOpcode. -/
theorem invalidOpcodeExactly : Obligations.InvalidOpcodeExactly := by
  intro i s running
  refine ⟨fun invalid => exec_of_isInvalid invalid s, fun t addr word h halted => ?_⟩
  obtain run | ⟨run, -⟩ | ⟨run, -⟩ | ⟨run, invalid⟩ := (exec_leaves h).run <;> rw [halted] at run
  · rw [running] at run; cases run
  · cases run
  · cases run
  · cases run; exact ⟨invalid, rfl, rfl⟩

/-- Settles O43: only a service's failing call records an output failure, and it leaves the frame of its calls. -/
theorem outputFailureKeepsEarlierEffects : Obligations.OutputFailureKeepsEarlierEffects := by
  intro i s t running h failure
  cases exec_leaves h with
  | result _ _ f | store _ _ f => exact absurd ((f.run.trans running).symm.trans failure) (by decide)
  | jump => exact absurd (running.symm.trans failure) (by decide)
  | invalid => cases failure
  | @service w _ runs leaves =>
    obtain ⟨writes, f, wait, draw⟩ := leaves.failed running failure
    exact ⟨⟨w, runs, writes⟩, draw, wait, (State.reg_congr f.regs 7).trans (s.link_reg 7),
      fun r hr => (State.reg_congr f.regs r).trans (s.sameRegsBut_link r hr), f.cond, f.pc, f.out⟩

/-- A service has a next state, unless it is PUTS or PUTSP on a string that never ends, whose reads are not intercepted
(R107, R109). -/
theorem serviceOutcome_total (w : Service) (s : State) :
    (∃ t, serviceOutcome w s = .next t) ∨
    (serviceOutcome w s = .fault .stringNeverEnds ∧ s.cfg.trapReadIntercepts = false ∧ (w = .puts ∨ w = .putsp)) := by
  have endless {form : StringForm} (h : form.loop (stringFuel s) (s.reg serviceReg) s = none) :
      s.cfg.trapReadIntercepts = false := by
    refine Bool.eq_false_of_not_eq_true fun intercepts => ?_
    have ends := StringForm.loop_stringFuel_isSome_of_intercepts (form := form) (a := s.reg serviceReg) intercepts
    rw [h] at ends
    cases ends
  cases w with
  | getc | out | input | halt => exact .inl ⟨_, rfl⟩
  | puts =>
    cases loop : servicePuts s with
    | some r => exact .inl ⟨r.state, congrArg stringOutcome loop⟩
    | none => exact .inr ⟨congrArg stringOutcome loop, endless ((putsLoop_eq ..).symm.trans loop), .inl rfl⟩
  | putsp =>
    cases loop : servicePutsp s with
    | some r => exact .inl ⟨r.state, congrArg stringOutcome loop⟩
    | none => exact .inr ⟨congrArg stringOutcome loop, endless ((putspLoop_eq ..).symm.trans loop), .inr rfl⟩

/-- Settles O58: by the service, if the instruction runs one. -/
theorem onlyEndlessStringsStop : Obligations.OnlyEndlessStringsStop := by
  intro i s
  cases service : serviceRun i with
  | none =>
    obtain ⟨t, run, -⟩ := exec_of_no_service service s
    exact .inl ⟨t, run⟩
  | some w =>
    rw [exec_of_serviceRun service]
    exact (serviceOutcome_total w s.link).imp id fun ⟨fault, plain, string⟩ =>
      ⟨fault, plain, string.imp (congrArg some) (congrArg some)⟩

/-- The two vectors of the string services (R104). -/
theorem vector_of_string {v : BitVec 8} (h : serviceOf v = some .puts ∨ serviceOf v = some .putsp) :
    v = 0x22#8 ∨ v = 0x24#8 := by
  revert v; decide

/-- Settles O30: the link writes R7, and what follows it writes neither R7 nor pc. -/
theorem trapLinksAndFallsThrough : Obligations.TrapLinksAndFallsThrough := by
  intro high v s
  have linked (t : State) (h : exec (.trap high v) s = .next t) : t.reg 7 = s.pc ∧ t.pc = s.pc := by
    cases service : serviceOf v with
    | none =>
      rw [exec_trap_of_none high s service, exec_trapUndefined] at h
      cases h
      exact ⟨s.link_reg 7, rfl⟩
    | some w =>
      rw [exec_trap_of_service high s service] at h
      have leaves := serviceOutcome_leaves h
      have notLink : linkReg ∉ if readsInput w then [serviceReg] else [] := by cases w <;> decide
      exact ⟨(leaves.regs 7 notLink).trans (s.link_reg 7), leaves.pc⟩
  refine ⟨linked, fun intercepts => ?_⟩
  obtain ⟨t, h⟩ | ⟨-, plain, string⟩ := onlyEndlessStringsStop (.trap high v) s
  · exact ⟨t, h, linked t h⟩
  · rw [intercepts (vector_of_string string)] at plain
    cases plain

/-! ## Steps -/

theorem OutputGood.congr {k : Nat} {s t : State} (h : OutputGood k s) (draws : t.outFailAt = s.outFailAt) :
    OutputGood k t := by
  rw [OutputGood, draws]; exact h

section
variable {s : State}

theorem step_of_halted {reason : HaltReason} (h : s.run = .halted reason) : step s = .fault (.halted reason) := by
  rw [step, machineStep, h]

theorem step_of_ready (running : s.run = .running) (ready : s.wait = .ready) : step s = cycle s.hostTurn := by
  rw [step, machineStep, running, ready]

theorem step_of_waiting (running : s.run = .running) (waiting : s.wait ≠ .ready) :
    step s = waitCycle (!s.host.isEmpty) s.wait s.hostTurn := by
  rw [step, machineStep, running]
  cases h : s.wait with
  | ready => exact absurd h waiting
  | getc => rfl
  | input => rfl

/-- A stop request ends the run before anything else, whether a service waits or not (R77, R112; log 17). -/
theorem step_of_stop (running : s.run = .running) (stop : s.hostTurn.stop = true) :
    step s = .next (s.hostTurn.haltWith .stopped) := by
  by_cases ready : s.wait = .ready
  · rw [step_of_ready running ready, cycle, if_pos stop]
  · rw [step_of_waiting running ready, waitCycle, if_pos stop]

/-- A character lets a waiting service go on (R112). -/
theorem step_of_character {c : Byte} {rest : List Byte} (running : s.run = .running) (waiting : s.wait ≠ .ready)
    (noStop : s.hostTurn.stop = false) (queue : s.hostTurn.inq = c :: rest) :
    step s = .next (resumeService s.wait s.hostTurn) := by
  simp [step_of_waiting running waiting, waitCycle, noStop, State.inAvail, queue]

end

/-- Settles O2: by `step_of_halted` and `step_of_stop`. -/
theorem haltedOrStoppedRunsNothing : Obligations.HaltedOrStoppedRunsNothing := by
  refine ⟨fun s reason h => step_of_halted h, fun s running stop => ?_⟩
  exact ⟨_, step_of_stop running stop, rfl, rfl, s.hostTurn_pc, s.hostTurn_cond, fun r _ => s.hostTurn_reg r,
    s.hostTurn_stored, ⟨rfl, rfl, rfl⟩, ⟨rfl, rfl, rfl⟩, s.hostTurn_cfg⟩

/-- Settles O3: by `step_of_ready`; the host's turn leaves pc. -/
theorem stepRunsDecodedInstruction : Obligations.StepRunsDecodedInstruction := by
  intro s running ready noStop
  rw [step_of_ready running ready, cycle, if_neg (Bool.not_eq_true _ ▸ noStop), State.fetch_eq, s.hostTurn_pc]

theorem State.setWait_self {s : State} {w : Wait} (h : s.wait = w) : s.setWait w = s := by
  subst h; rfl

/-- A waiting service that finds no character waits on, with nothing changed (R112). -/
theorem resumeService_of_nil {s : State} (empty : s.inq = []) : resumeService s.wait s = s := by
  cases h : s.wait with
  | ready => rfl
  | getc => exact (serviceGetc_of_nil (s := s.setWait .ready) empty).trans (State.setWait_self h)
  | input =>
    exact (congrArg Ran.state (inputFromRead_of_nil (s := s.setWait .ready) empty)).trans (State.setWait_self h)

/-- The state in which a resumed service goes on with what it does with its character: the host's turn is taken, the
character read, and no service waits. -/
def State.resumed (rest : List Byte) (s : State) : State := (s.hostTurn.setWait .ready).setInq rest

section
variable {s : State} {c : Byte} {rest : List Byte} {k : Nat}

theorem State.resumed_outFailAt : (s.resumed rest).outFailAt = s.outFailAt := s.hostTurn_outFailAt

theorem step_of_getc_character (running : s.run = .running) (waiting : s.wait = .getc)
    (noStop : s.hostTurn.stop = false) (queue : s.hostTurn.inq = c :: rest) :
    step s = .next ((s.resumed rest).takeCharacter c) := by
  rw [step_of_character running (by simp [waiting]) noStop queue, waiting, resumeService,
    serviceGetc_of_cons (s := s.hostTurn.setWait .ready) queue, State.resumed]

theorem step_of_input_character (running : s.run = .running) (waiting : s.wait = .input)
    (noStop : s.hostTurn.stop = false) (queue : s.hostTurn.inq = c :: rest) :
    step s = .next (echoCharacter c (s.resumed rest)).state := by
  rw [step_of_character running (by simp [waiting]) noStop queue, waiting, resumeService,
    inputFromRead_of_cons (s := s.hostTurn.setWait .ready) queue, State.resumed]

/-- What a resumed service that takes its character leaves, after calls that succeeded. -/
theorem State.resumed_takeCharacter {u : State} (running : s.run = .running) (calls : (s.resumed rest).OutFrame u)
    (run : u.run = (s.resumed rest).run) (wait : u.wait = (s.resumed rest).wait) :
    (u.takeCharacter c).wait = .ready ∧ (u.takeCharacter c).run = .running ∧
    ((u.takeCharacter c).reg 0).toNat = c.toNat ∧ FlagOf ((u.takeCharacter c).reg 0) (u.takeCharacter c).cond ∧
    SameRegsBut [0] s (u.takeCharacter c) ∧ (u.takeCharacter c).pc = s.pc ∧ (u.takeCharacter c).inq = rest ∧
    SameMemory s (u.takeCharacter c) := by
  obtain ⟨value, flag, regs, pc, memory, ⟨inq, -⟩, -, run', wait', -⟩ := u.takeCharacter_spec c
  refine ⟨wait'.trans wait, run'.trans (run.trans (s.hostTurn_run.trans running)), value, flag, fun r hr => ?_,
    pc.trans (calls.pc.trans s.hostTurn_pc), inq.trans calls.inq, fun a => ?_⟩
  · exact (regs r hr).trans ((State.reg_congr calls.regs r).trans (s.hostTurn_reg r))
  · exact (memory a).trans ((State.stored_congr calls.mem a).trans (s.hostTurn_stored a))

theorem State.resumed_written_out : ((s.resumed rest).written [c]).out = s.out ++ [c] :=
  congrArg (· ++ [c]) s.hostTurn_out

theorem State.resumed_emitted_out (bs : List Byte) : ((s.resumed rest).emitted bs).out = s.out ++ bs :=
  congrArg (· ++ bs) s.hostTurn_out

end

/-- Settles O33: by the step of each waiting service, and the result of the echo. -/
theorem waitingServiceResumes : Obligations.WaitingServiceResumes := by
  refine ⟨fun s c rest running waiting noStop queue => ?_, fun s c rest running waiting noStop queue good => ?_,
    fun s c rest k running waiting noStop queue draw hk => ?_, fun s running waiting noStop empty => ⟨?_, ?_⟩⟩
  · obtain ⟨wait, run, value, flag, regs, pc, inq, memory⟩ :=
      State.resumed_takeCharacter (c := c) running (.refl (s.resumed rest)) rfl rfl
    exact ⟨_, step_of_getc_character running waiting noStop queue, wait, run, value, flag, regs, pc, inq, memory,
      rfl, rfl, rfl⟩
  · have echoGood : OutputGood 2 (s.resumed rest) := good.congr State.resumed_outFailAt
    obtain ⟨wait, run, value, flag, regs, pc, inq, memory⟩ :=
      State.resumed_takeCharacter (c := c) running ((s.resumed rest).written_frame [c]) rfl rfl
    refine ⟨_, (step_of_input_character running waiting noStop queue).trans
      (congrArg Ran.outcome (echoCharacter_good c echoGood)), wait, run, value, flag, regs, pc, inq, memory,
      State.resumed_written_out, rfl⟩
  · have echoDraw : (s.resumed rest).outFailAt = some k := State.resumed_outFailAt.trans draw
    exact ⟨_, (step_of_input_character running waiting noStop queue).trans
      (congrArg Ran.outcome (echoCharacter_fails c echoDraw hk)), rfl, rfl, fun r _ => s.hostTurn_reg r,
      s.hostTurn_cond, s.hostTurn_pc, rfl, s.hostTurn_stored, State.resumed_emitted_out _, rfl⟩
  · intro noTurn
    simp [step_of_waiting running waiting, waitCycle, noStop, State.inAvail, empty, noTurn]
  · intro turn
    have unchanged := resumeService_of_nil empty
    rw [s.hostTurn_wait] at unchanged
    simp [step_of_waiting running waiting, waitCycle, noStop, turn, unchanged]

/-! ## What every step keeps -/

/-- The fetch is a read of memory and the increment of pc (R78). -/
theorem State.fetch_frame (s : State) : s.StreamFrame s.fetch.2 := by
  have f := s.memRead_frame s.pc
  exact ⟨f.stop, f.host, f.cfg, f.inq, f.call.out, f.call.flushed, f.wf⟩

/-- What a step with a next state leaves, from the state after the host's turn. -/
theorem step_streams {s t : State} (h : step s = .next t) : s.hostTurn.StreamFrame t := by
  obtain ⟨-, ⟨-, rfl⟩ | ⟨-, -, run⟩ | ⟨-, -, rfl⟩ | ⟨-, -, rfl⟩⟩ := step_cases h
  · exact ⟨rfl, rfl, rfl, List.suffix_refl _, List.prefix_refl _, id, id⟩
  · exact s.hostTurn.fetch_frame.trans (exec_leaves run).streams
  · have f := (serviceGetc_leaves (s.hostTurn.setWait .ready)).streams
    exact ⟨f.stop, f.host, f.cfg, f.inq, f.out, f.flushed, f.wf⟩
  · have f := (inputFromRead_leaves (s.hostTurn.setWait .ready)).streams
    exact ⟨f.stop, f.host, f.cfg, f.inq, f.out, f.flushed, f.wf⟩

/-- Settles O48: the host's turn by its two cases, and every step by `step_streams`. -/
theorem streamsKeepOrder : Obligations.StreamsKeepOrder := by
  refine ⟨fun s => State.hostTurn_nil, fun s m rest h => State.hostTurn_cons h, fun s t h => ?_⟩
  have f := step_streams h
  exact ⟨f.inq, s.hostTurn_out ▸ f.out, f.stop, f.host, f.cfg.trans s.hostTurn_cfg⟩

theorem State.hostTurn_inv {s : State} (inv : s.Inv) : s.hostTurn.Inv where
  memory := s.hostTurn_mem ▸ inv.memory
  visible := s.hostTurn_out ▸ s.hostTurn_flushed.2 inv.visible
  waiting := by rw [s.hostTurn_wait, s.hostTurn_run]; exact inv.waiting

theorem step_waiting {s t : State} (h : step s = .next t) : t.wait = .ready ∨ t.run = .running := by
  obtain ⟨running, ⟨-, rfl⟩ | ⟨-, ready, run⟩ | ⟨-, -, rfl⟩ | ⟨-, -, rfl⟩⟩ := step_cases h
  · exact .inl rfl
  · have f := s.hostTurn.memRead_frame s.hostTurn.pc
    exact (exec_leaves run).waiting (f.run.trans (s.hostTurn_run.trans running))
      (f.wait.trans (s.hostTurn_wait.trans ready))
  · exact (serviceGetc_leaves _).waiting (s.hostTurn_run.trans running)
  · exact (inputFromRead_leaves _).waiting (s.hostTurn_run.trans running)

/-- Settles O60: the host's turn keeps the invariant, and what a step leaves after it does. -/
theorem stepKeepsInvariant : Obligations.StepKeepsInvariant := fun _ _ inv h =>
  (step_streams h).inv (State.hostTurn_inv inv) (step_waiting h)

/-! ## The ends of a run -/

/-- The only decoded form that runs HALT is its own row (log 11). -/
theorem eq_trapHalt_of_serviceRun {i : Instr} (wf : i.wellFormed = true) (h : serviceRun i = some .halt) :
    i = .trapHalt := by
  cases i with
  | trapHalt => rfl
  | trap => cases wf
  | _ => cases h

/-- A waiting service that is resumed goes on with the run, or one of its calls fails. -/
theorem ServiceLeaves.run_of_reads {s t : State} {w : Service} (h : ServiceLeaves s w t)
    (reads : readsInput w = true) :
    t.run = s.run ∨ (t.run = .halted .outputFailure ∧ s.outFailAt ≠ none) := by
  obtain run | ⟨-, rfl⟩ | failed := h.run
  · exact .inl run
  · cases reads
  · exact .inr failed

/-- How a step that was no stop leaves the run state: the run goes on, or a call failed, or the fetched instruction
ended it (R83). -/
theorem step_run {s t : State} (h : step s = .next t) (noStop : s.hostTurn.stop = false) :
    t.run = .running ∨ (t.run = .halted .outputFailure ∧ s.outFailAt ≠ none) ∨
    (s.wait = .ready ∧
      ((t.run = .halted .halt ∧ decode s.hostTurn.fetch.1 = .trapHalt) ∨
       (t.run = .halted (.invalidOpcode s.pc s.hostTurn.fetch.1) ∧
        isInvalid (decode s.hostTurn.fetch.1) = true))) := by
  obtain ⟨running, ⟨stop, -⟩ | ⟨-, ready, run⟩ | ⟨-, -, rfl⟩ | ⟨-, -, rfl⟩⟩ := step_cases h
  · exact absurd (stop.symm.trans noStop) (by decide)
  · have f := s.hostTurn.memRead_frame s.hostTurn.pc
    have fetchAddr : s.hostTurn.fetch.2.pc - 1 = s.pc := (BitVec.add_sub_cancel _ _).trans s.hostTurn_pc
    obtain ⟨wf, kept⟩ := decode_spec s.hostTurn.fetch.1
    obtain run | ⟨run, halt⟩ | ⟨run, draw⟩ | ⟨run, invalid⟩ := (exec_leaves run).run
    · exact .inl (run.trans (f.run.trans (s.hostTurn_run.trans running)))
    · exact .inr (.inr ⟨ready, .inl ⟨run, eq_trapHalt_of_serviceRun wf halt⟩⟩)
    · exact .inr (.inl ⟨run, fun never => draw (f.outFailAt.trans (s.hostTurn_outFailAt.trans never))⟩)
    · rw [fetchAddr, kept invalid] at run
      exact .inr (.inr ⟨ready, .inr ⟨run, invalid⟩⟩)
  · exact ((serviceGetc_leaves _).run_of_reads rfl).imp (·.trans (s.hostTurn_run.trans running))
      fun ⟨run, draw⟩ => .inl ⟨run, s.hostTurn_outFailAt ▸ draw⟩
  · exact ((inputFromRead_leaves _).run_of_reads rfl).imp (·.trans (s.hostTurn_run.trans running))
      fun ⟨run, draw⟩ => .inl ⟨run, s.hostTurn_outFailAt ▸ draw⟩

/-- A step that was taken with a stop request ended the run as HALTED(Stopped) (R77). -/
theorem run_of_stop {s t : State} (h : step s = .next t) (stop : s.hostTurn.stop = true) :
    t.run = .halted .stopped := by
  obtain ⟨-, ⟨-, rfl⟩ | ⟨noStop, -⟩ | ⟨noStop, -⟩ | ⟨noStop, -⟩⟩ := step_cases h
  · rfl
  all_goals exact absurd (stop.symm.trans noStop) (by decide)

/-- Settles O4: each end is one case of `step_run`, or the stop. -/
theorem runEndsOnlyByItsCauses : Obligations.RunEndsOnlyByItsCauses := by
  intro s t h
  cases stop : s.hostTurn.stop with
  | true => simp [run_of_stop h stop]
  | false =>
    obtain run | ⟨run, draw⟩ | ⟨ready, ⟨run, halt⟩ | ⟨run, invalid⟩⟩ := step_run h stop
    · simp [run]
    · simp [run, draw]
    · simp [run, ready, halt]
    · simp +contextual [run, ready, invalid]

end Sys2Proof.Machine

/-! PROOFS. `cond` is read only by BR: every other instruction, run from two states that differ only in `cond`, gives
two outcomes that differ only in `cond` (spec/10_state.md R27). -/

namespace Sys2Proof.Machine

/-! ## States and results that differ only in the flag -/

/-- The state with another flag. -/
def State.withCond (c : Cond) (s : State) : State := { s with cond := c }

/-- Two results of a service that differ only in the flag. -/
inductive Ran.AgreeButCond : Ran → Ran → Prop where
  | goesOn (s : State) (c : Cond) : AgreeButCond (.goesOn s) (.goesOn (s.withCond c))
  | ended (s : State) (c : Cond) : AgreeButCond (.ended s) (.ended (s.withCond c))

/-- Two outcomes that differ only in the flag. -/
inductive AgreeButCond : Host.Outcome State Fault Refusal → Host.Outcome State Fault Refusal → Prop where
  | next (t : State) (c : Cond) : AgreeButCond (.next t) (.next (t.withCond c))
  | fault (f : Fault) : AgreeButCond (.fault f) (.fault f)

theorem Ran.AgreeButCond.refl (r : Ran) : r.AgreeButCond r := by
  cases r with
  | goesOn s => exact .goesOn s s.cond
  | ended s => exact .ended s s.cond

theorem AgreeButCond.next_self (t : State) : AgreeButCond (.next t) (.next t) := .next t t.cond

theorem Ran.AgreeButCond.outcome {r q : Ran} (h : r.AgreeButCond q) : Machine.AgreeButCond r.outcome q.outcome := by
  cases h with
  | goesOn s c | ended s c => exact .next s c

theorem Ran.AgreeButCond.andThen {r q : Ran} {f : State → Ran} (h : r.AgreeButCond q)
    (hf : ∀ (s : State) (c : Cond), (f s).AgreeButCond (f (s.withCond c))) :
    (r.andThen f).AgreeButCond (q.andThen f) := by
  cases h with
  | goesOn s c => exact hf s c
  | ended s c => exact .ended s c

/-! ## Reads and output calls -/

section
variable (s : State) (c : Cond)

theorem State.withCond_cfg : (s.withCond c).cfg = s.cfg := rfl

theorem State.withCond_outputFails : (s.withCond c).outputFails = s.outputFails := rfl

theorem State.withCond_link : (s.withCond c).link = s.link.withCond c := rfl

theorem State.pollKeyboard_withCond : (s.withCond c).pollKeyboard = s.pollKeyboard.withCond c := by
  cases h : s.inq with
  | nil => rw [State.pollKeyboard_of_nil h, State.pollKeyboard_of_nil (s := s.withCond c) h]; rfl
  | cons b rest => rw [State.pollKeyboard_of_cons h, State.pollKeyboard_of_cons (s := s.withCond c) h]; rfl

/-- A read gives the same word, and states that differ in the flag (R39). -/
theorem State.memRead_withCond (a : Word) :
    (s.withCond c).memRead a = ((s.memRead a).1, (s.memRead a).2.withCond c) := by
  by_cases h : a = s.cfg.kbsrAddr
  · subst h
    have polls : (s.withCond c).memRead s.cfg.kbsrAddr = _ := (s.withCond c).memRead_kbsr
    rw [polls, s.memRead_kbsr, State.pollKeyboard_withCond]
    rfl
  · rw [s.memRead_other h, (s.withCond c).memRead_other h]
    rfl

theorem State.stringRead_withCond (a : Word) :
    (s.withCond c).stringRead a = ((s.stringRead a).1, (s.stringRead a).2.withCond c) := by
  rw [State.stringRead, State.stringRead, State.withCond_cfg]
  split
  · exact s.memRead_withCond c a
  · rfl

theorem State.outByte_agree (b : Byte) : (s.outByte b).AgreeButCond ((s.withCond c).outByte b) := by
  rw [State.outByte, State.outByte, State.withCond_outputFails]
  split
  · exact .ended s.raiseOutputFailure c
  · exact .goesOn (s.drawUsed.emit b) c

theorem State.flush_agree : s.flush.AgreeButCond (s.withCond c).flush := by
  rw [State.flush, State.flush, State.withCond_outputFails]
  split
  · exact .ended s.raiseOutputFailure c
  · exact .goesOn s.drawUsed.markFlushed c

theorem outBytes_agree (bs : List Byte) : (outBytes bs s).AgreeButCond (outBytes bs (s.withCond c)) := by
  induction bs generalizing s c with
  | nil => exact .goesOn s c
  | cons b rest ih => exact (s.outByte_agree c b).andThen ih

/-! ## Services -/

/-- A write of a result sets the flag, so it hides the flag from before it (R27). -/
theorem State.writeResult_withCond (dr : Reg) (v : Word) : (s.withCond c).writeResult dr v = s.writeResult dr v := rfl

theorem serviceGetc_agree : AgreeButCond (.next (serviceGetc s)) (.next (serviceGetc (s.withCond c))) := by
  cases queue : s.inq with
  | nil =>
    rw [serviceGetc_of_nil queue, serviceGetc_of_nil (s := s.withCond c) queue]
    exact .next (s.setWait .getc) c
  | cons b rest =>
    rw [serviceGetc_of_cons queue, serviceGetc_of_cons (s := s.withCond c) queue]
    exact .next_self _

theorem echoCharacter_agree (b : Byte) : (echoCharacter b s).AgreeButCond (echoCharacter b (s.withCond c)) :=
  ((s.outByte_agree c b).andThen State.flush_agree).andThen fun t _ => .refl (.goesOn (t.takeCharacter b))

theorem inputFromRead_agree : (inputFromRead s).AgreeButCond (inputFromRead (s.withCond c)) := by
  cases queue : s.inq with
  | nil =>
    rw [inputFromRead_of_nil queue, inputFromRead_of_nil (s := s.withCond c) queue]
    exact .goesOn (s.setWait .input) c
  | cons b rest =>
    rw [inputFromRead_of_cons queue, inputFromRead_of_cons (s := s.withCond c) queue]
    exact echoCharacter_agree (s.setInq rest) c b

theorem serviceIn_agree : (serviceIn s).AgreeButCond (serviceIn (s.withCond c)) :=
  ((outBytes_agree s c s.cfg.inPrompt).andThen State.flush_agree).andThen inputFromRead_agree

theorem serviceOut_agree : (serviceOut s).AgreeButCond (serviceOut (s.withCond c)) :=
  (s.outByte_agree c _).andThen State.flush_agree

theorem serviceHalt_agree : (serviceHalt s).AgreeButCond (serviceHalt (s.withCond c)) :=
  (((s.flush_agree c).andThen fun t d => outBytes_agree t d t.cfg.haltNotice).andThen State.flush_agree).andThen
    fun t d => .goesOn (t.haltWith .halt) d

/-- The loops of PUTS and PUTSP go on or end alike. -/
theorem StringForm.loop_agree (form : StringForm) (n : Nat) (a : Word) :
    Option.Rel Ran.AgreeButCond (form.loop n a s) (form.loop n a (s.withCond c)) := by
  induction n generalizing a s c with
  | zero => exact .none
  | succ n ih =>
    rw [loop, loop, State.stringRead_withCond]
    have calls := outBytes_agree (s.stringRead a).2 c (form.chars (s.stringRead a).1)
    dsimp only
    generalize outBytes (form.chars (s.stringRead a).1) (s.stringRead a).2 = r at calls ⊢
    generalize outBytes (form.chars (s.stringRead a).1) ((s.stringRead a).2.withCond c) = q at calls ⊢
    cases calls with
    | ended t d => exact .some (.ended t d)
    | goesOn t d =>
      dsimp only
      split
      · exact .some (t.flush_agree d)
      · exact ih t d (a + 1)

theorem stringOutcome_agree {o p : Option Ran} (h : Option.Rel Ran.AgreeButCond o p) :
    AgreeButCond (stringOutcome o) (stringOutcome p) := by
  cases h with
  | some h => exact h.outcome
  | none => exact .fault .stringNeverEnds

theorem serviceOutcome_agree (w : Service) : AgreeButCond (serviceOutcome w s) (serviceOutcome w (s.withCond c)) := by
  cases w with
  | getc => exact serviceGetc_agree s c
  | out => exact (serviceOut_agree s c).outcome
  | puts => exact stringOutcome_agree (by simp only [servicePuts, putsLoop_eq]; exact putsForm.loop_agree s c _ _)
  | input => exact (serviceIn_agree s c).outcome
  | putsp => exact stringOutcome_agree (by simp only [servicePutsp, putspLoop_eq]; exact putspForm.loop_agree s c _ _)
  | halt => exact (serviceHalt_agree s c).outcome

/-! ## Instructions -/

theorem loadInto_withCond (dr : Reg) (ea : Word) : loadInto dr ea (s.withCond c) = loadInto dr ea s := by
  rw [loadInto, loadInto, State.memRead_withCond]
  exact State.writeResult_withCond _ c dr _

/-- Every instruction but BR gives outcomes that differ at most in the flag. -/
theorem exec_agree {i : Instr} (notBr : ∀ n z p off9, i ≠ .br n z p off9) :
    AgreeButCond (exec i s) (exec i (s.withCond c)) := by
  cases service : serviceRun i with
  | some w =>
    rw [exec_of_serviceRun service, exec_of_serviceRun service, State.withCond_link]
    exact serviceOutcome_agree s.link c w
  | none =>
    cases i with
    | br n z p off9 => exact absurd rfl (notBr n z p off9)
    | addReg | addImm | andReg | andImm | notReg | lea => exact .next_self _
    | ld dr off9 => rw [exec_ld, exec_ld, loadInto_withCond]; exact .next_self _
    | ldr dr baseR off6 => rw [exec_ldr, exec_ldr, loadInto_withCond]; exact .next_self _
    | ldi dr off9 =>
      rw [exec_ldi, exec_ldi, State.memRead_withCond, loadInto_withCond]
      exact .next_self _
    | sti sr off9 =>
      rw [exec_sti, exec_sti, State.memRead_withCond]
      exact .next _ c
    | st | str | jmp | jsr | jsrr | opcode8 | opcode13 | trapUndefined => exact .next _ c
    | trap high v =>
      rw [exec_trap_of_none high s service, exec_trap_of_none high _ service]
      exact .next _ c
    | _ => cases service

end

/-- Settles O55: by `exec_agree`, whose two outcomes are both next states or the same fault. -/
theorem condReadOnlyByBranch : Obligations.CondReadOnlyByBranch := by
  intro i s c notBr
  have agree : AgreeButCond (exec i s) (exec i { s with cond := c }) := exec_agree s c notBr
  generalize exec i s = o at agree ⊢
  generalize exec i { s with cond := c } = p at agree ⊢
  cases agree with
  | next t d => exact ⟨fun t' h => by cases h; exact ⟨_, rfl, rfl⟩, fun f h => by cases h⟩
  | fault f => exact ⟨fun t h => (by cases h), fun f' h => h⟩

end Sys2Proof.Machine
